-- ==== Sys2Proof/Word.lean ====
section
/-!
DEFINITION. The word of the hardware and the types of its parts.
spec/10_state.md R10: every register, memory cell, instruction, identifier, offset and length is an
unsigned 32-bit word. Bytes exist only on the two I/O channels and in the program image.
-/

namespace Sys2Proof

/-- An unsigned 32-bit integer (10_state.md R10). -/
abbrev Word := BitVec 32

/-- A byte of an I/O channel or of the program image (10_state.md R25, R26; 20_memory.md R32). -/
abbrev Byte := BitVec 8

/-- A register index, 0 to 7 (10_state.md R11: in range by construction, a 3-bit field). -/
abbrev Reg := Fin 8

end Sys2Proof
end

