-- ==== Sys2Proof/Machine/State.lean ====
section
/-!
DEFINITION. The state of the hardware as plain data (10_state.md R11 to R20, R25, R26), its reset
value (R28) and the reason types of the step's outcome.
-/

namespace Sys2Proof.Machine

/-- The run status: one non-terminal and two terminal states (10_state.md R15). -/
inductive Status where
  | running
  | halted
  | faulted
deriving DecidableEq, Repr, Inhabited

/-- The execution faults, with the information each records (60_exceptions.md R120; log entry 11).
Each is raised by entering the status `faulted` (R124), never by stopping the model. -/
inductive Cause where
  /-- Code 1: decode of a word whose opcode is 14 or 15. -/
  | invalidOpcode (w : Word)
  /-- Code 2: DIV with divisor 0. -/
  | divideByZero
  /-- Code 3: an access to, or an unmap of, an identifier that is not active. -/
  | inactiveSegment (id : Word)
  /-- Code 4: an access at or beyond the length of an active segment. -/
  | offsetOutOfRange (id off : Word)
  /-- Code 5: UNMAP of identifier 0. -/
  | unmapSegmentZero
  /-- Code 6: no identifier or no storage is left (20_memory.md R53; log entry 13). -/
  | resourceExhausted
deriving DecidableEq, Repr, Inhabited

/-- A segment: its length and its words (10_state.md R17). `cells` lists the words that are not
zero, as offset and value, offsets strictly rising; a word in range that is not listed is 0, which
is what MAP fills a segment with (20_memory.md R39; log entry 15). -/
structure Segment where
  len : Word
  cells : List (Nat × Word)
deriving DecidableEq, Repr, Inhabited

/-- What the segment table says of an identifier that has been issued (10_state.md R17). -/
inductive Slot where
  | active (seg : Segment)
  | tombstone
deriving DecidableEq, Repr, Inhabited

/-- The segment store (10_state.md R17, R19, R20): the segment table (identifiers strictly rising;
one that is not listed was never issued), the FIFO free list (oldest first) and the counter next_id. -/
structure Store where
  table : List (Nat × Slot)
  free : List Word
  nextId : Nat
deriving DecidableEq, Repr, Inhabited

/-- An answer of the input channel (10_state.md R26). -/
inductive Answer where
  | byte (b : Byte)
  | eos
deriving DecidableEq, Repr, Inhabited

/-- The machine's state. The first seven fields are the hardware's; the last three are the model's own. -/
structure State where
  /-- The register file x[0] .. x[7] (10_state.md R11). -/
  regs : Vector Word 8
  /-- The program counter, a word offset into segment 0 (R13, R14). -/
  pc : Word
  /-- The run status (R15). -/
  status : Status
  /-- The register fault_cause; `none` is its code 0 (R16; 60_exceptions.md R120). -/
  faultCause : Option Cause
  /-- The segment store (R17 to R20). -/
  store : Store
  /-- The output channel: the bytes emitted so far, oldest first (R25). -/
  output : List Byte
  /-- Whether the program-load interface can still be used: it is used once per run, between reset
  and the first step (R24; 70_reset_and_hazards.md R142; log entry 25). -/
  loadOpen : Bool
  /-- The model's own: the answers the host will give to the coming In() requests, oldest first;
  empty means the host has not answered yet (R26, R29; log entry 5). -/
  input : List Answer
  /-- The model's own: the parameter POOL_WORDS, `none` for unbounded; no step changes it
  (00_scope.md R6; 20_memory.md R53; log entry 8). -/
  poolWords : Option Nat
  /-- The model's own: how many free values have been drawn (log entry 2). -/
  freeDraws : Nat
deriving DecidableEq, Repr, Inhabited

/-- Reasons for `Outcome.fault`. There is none: the faults of the spec are entered by a step that
goes on to a next state (60_exceptions.md R124), and every other step has an effect (log entry 23). -/
inductive Fault
deriving DecidableEq, Repr

/-- Reasons for `Outcome.refused`. -/
inductive Refusal where
  /-- Raised by an arm of exec for an instruction that has no meaning yet; safe. No arm raises it now. -/
  | notModelled (mnemonic : String)
deriving DecidableEq, Repr

/-- The store of `initialize()` (20_memory.md R44; 10_state.md R28): segment 0 active and empty. -/
def Store.initial : Store where
  table := [(0, .active ⟨0, []⟩)]
  free := []
  nextId := 1

/-- Reset with the two parameters the spec lets a model take as arguments: the registers' first
values (REG_RESET, decision D2) and the pool (POOL_WORDS, decision D10). Everything else is the
table of 10_state.md R28. -/
def State.resetWith (regs : Vector Word 8) (poolWords : Option Nat) : State where
  regs := regs
  pc := 0
  status := .running
  faultCause := none
  store := Store.initial
  output := []
  loadOpen := true
  input := []
  poolWords := poolWords
  freeDraws := 0

/-- The machine right after reset (10_state.md R28; 70_reset_and_hazards.md R140): registers 0
(log entry 6), pc 0 (log entry 7), the pool unbounded (log entry 8). -/
def State.reset : State := State.resetWith (Vector.replicate 8 0) none

end Sys2Proof.Machine
end

