-- ==== Sys2Proof/Config.lean ====
section
/-!
DEFINITION. The parameters of the implementation: the constants the spec fixes (00_scope.md R5, R6)
and the free value that stands for what the spec withdraws from a faulted machine.
-/

namespace Sys2Proof.Config

/-- Identifiers are words, so 2^32 of them can be issued (00_scope.md R6 MAX_ID; 10_state.md R20). -/
def idLimit : Nat := 2 ^ 32

/-- The largest program image, in words (00_scope.md R6 IMAGE_MAX_WORDS; decision D11). -/
def imageMaxWords : Nat := 2 ^ 32 - 1

/-- The marker IN writes at end of stream (00_scope.md R5; 45_io.md R116). -/
def eosMarker : Word := 0xFFFFFFFF

/-- The largest value OUT emits (00_scope.md R5; 45_io.md R115). -/
def outMax : Nat := 255

/-- What the spec leaves unspecified of a faulted machine: registers, pc, segments, free list and
next_id (60_exceptions.md R125; 93_implementation_defined.md U2). -/
structure Untrusted where
  regs : Vector Word 8
  pc : Word
  store : Machine.Store
deriving DecidableEq, Repr, Inhabited

/-- FREE VALUE (log entries 1 and 2): what a machine that was in state `s` when fault `c` was raised
holds afterwards. It has no body: no proof can see it. The state holds the counter `freeDraws`, so
that each draw is a fresh one. -/
opaque untrusted (c : Machine.Cause) (s : Machine.State) : Untrusted

end Sys2Proof.Config
end

