-- ==== Sys2Proof/Machine/Store.lean ====
section
/-!
DEFINITION. The segment store: lists in canonical form, the segment address decoder (20_memory.md
R36) and the five store primitives (R37 to R42) with the free-list manager (R40) and the capacity
rule (R53).
-/

namespace Sys2Proof.Machine

/-! ## Lists of key and value, keys strictly rising -/

/-- The value listed under key `k`. -/
def Assoc.find {β : Type} : List (Nat × β) → Nat → Option β
  | [], _ => none
  | (a, x) :: rest, k => if a = k then some x else Assoc.find rest k

/-- List `x` under key `k`, in place of what stood there, keeping the keys rising. -/
def Assoc.put {β : Type} : List (Nat × β) → Nat → β → List (Nat × β)
  | [], k, x => [(k, x)]
  | (a, y) :: rest, k, x =>
    if k < a then (k, x) :: (a, y) :: rest
    else if k = a then (k, x) :: rest
    else (a, y) :: Assoc.put rest k x

/-- List nothing under key `k`. -/
def Assoc.erase {β : Type} : List (Nat × β) → Nat → List (Nat × β)
  | [], _ => []
  | (a, x) :: rest, k => if a = k then Assoc.erase rest k else (a, x) :: Assoc.erase rest k

/-- The keys of the list are strictly rising. -/
abbrev Assoc.Rising {β : Type} (l : List (Nat × β)) : Prop := l.Pairwise fun x y => x.1 < y.1

/-! ## Segments -/

/-- The canonical form of a segment: offsets strictly rising and in range, no zero word listed. -/
def Segment.wf (seg : Segment) : Bool :=
  decide (Assoc.Rising seg.cells) && seg.cells.all fun x => decide (x.1 < seg.len.toNat) && decide (x.2 ≠ 0)

/-- The word at an offset; 0 where none is listed (20_memory.md R39; log entry 15). -/
def Segment.read (seg : Segment) (off : Word) : Word := (Assoc.find seg.cells off.toNat).getD 0

/-- The segment with the word at an offset replaced; the length stays (10_state.md R17). -/
def Segment.write (seg : Segment) (off v : Word) : Segment :=
  { seg with cells := if v = 0 then Assoc.erase seg.cells off.toNat else Assoc.put seg.cells off.toNat v }

/-- A segment of `n` words, every word zero (20_memory.md R39). -/
def Segment.zeros (n : Word) : Segment := ⟨n, []⟩

/-- The words that are not zero of a list, with their offsets from `k` on. -/
def Segment.cellsOf : Nat → List Word → List (Nat × Word)
  | _, [] => []
  | k, w :: rest => if w = 0 then Segment.cellsOf (k + 1) rest else (k, w) :: Segment.cellsOf (k + 1) rest

/-- The segment that holds a sequence of words (10_state.md R24). -/
def Segment.ofWords (ws : List Word) : Segment := ⟨BitVec.ofNat 32 ws.length, Segment.cellsOf 0 ws⟩

/-! ## The segment table -/

/-- The words a slot takes of the pool. -/
def Slot.words : Slot → Nat
  | .active seg => seg.len.toNat
  | .tombstone => 0

/-- The canonical form of a slot: that of its segment. -/
def Slot.wf : Slot → Bool
  | .active seg => seg.wf
  | .tombstone => true

/-- What the segment table says of an identifier; `none`: never issued (10_state.md R17). -/
def Store.slot (st : Store) (id : Word) : Option Slot := Assoc.find st.table id.toNat

/-- The segment an identifier references, if it is active (10_state.md R17). -/
def Store.segment (st : Store) (id : Word) : Option Segment :=
  match st.slot id with
  | some (.active seg) => some seg
  | some .tombstone => none
  | none => none

/-- The store with the table's entry for one identifier replaced. -/
def Store.setSlot (st : Store) (id : Word) (x : Slot) : Store :=
  { st with table := Assoc.put st.table id.toNat x }

/-- The sum of the lengths of all active segments (20_memory.md R53 `words_in_use`). -/
def Store.wordsInUse (st : Store) : Nat := (st.table.map fun x => x.2.words).sum

/-- The canonical form of memory: identifiers strictly rising, each a word, each segment canonical. -/
def Store.wf (st : Store) : Bool :=
  decide (Assoc.Rising st.table) && st.table.all fun x => decide (x.1 < Config.idLimit) && x.2.wf

/-! ## The segment address decoder -/

/-- The two tests of every access: active, then bounds (20_memory.md R36; log entry 12). -/
def Store.locate (st : Store) (id off : Word) : Except Cause Segment :=
  match st.segment id with
  | none => .error (.inactiveSegment id)
  | some seg => if off.toNat < seg.len.toNat then .ok seg else .error (.offsetOutOfRange id off)

/-- `MemRead(id:off, 1)` (20_memory.md R37). -/
def memRead (st : Store) (id off : Word) : Except Cause Word :=
  match st.locate id off with
  | .ok seg => .ok (seg.read off)
  | .error c => .error c

/-- `MemWrite(id:off, 1, v)` (20_memory.md R38). -/
def memWrite (st : Store) (id off v : Word) : Except Cause Store :=
  match st.locate id off with
  | .ok seg => .ok (st.setSlot id (.active (seg.write off v)))
  | .error c => .error c

/-! ## Allocation -/

/-- Whether a number of words fits in the pool (20_memory.md R53; log entry 8). -/
def fitsPool (pool : Option Nat) (n : Nat) : Bool :=
  match pool with
  | none => true
  | some p => decide (n ≤ p)

/-- `NewId()`: the oldest freed identifier, else the next unused integer (20_memory.md R40);
`none` when the free list is empty and every identifier has been minted (R39). -/
def newId (st : Store) : Option (Word × Store) :=
  match st.free with
  | f :: rest => some (f, { st with free := rest })
  | [] =>
    if st.nextId < Config.idLimit then
      some (BitVec.ofNat 32 st.nextId, { st with nextId := st.nextId + 1 })
    else none

/-- `SegMap(n)`: a zero-filled segment of `n` words and its identifier (20_memory.md R39). -/
def segMap (pool : Option Nat) (st : Store) (n : Word) : Except Cause (Word × Store) :=
  match newId st with
  | none => .error .resourceExhausted
  | some (id, st') =>
    if fitsPool pool (st.wordsInUse + n.toNat) then
      .ok (id, st'.setSlot id (.active (Segment.zeros n)))
    else .error .resourceExhausted

/-- `SegUnmap(id)` (20_memory.md R41). -/
def segUnmap (st : Store) (id : Word) : Except Cause Store :=
  if id = 0 then .error .unmapSegmentZero
  else
    match st.segment id with
    | none => .error (.inactiveSegment id)
    | some _ => .ok { st.setSlot id .tombstone with free := st.free ++ [id] }

/-- `SegReplaceZero(src)`: segment 0 becomes a copy of segment `src` (20_memory.md R42, R43). With
`src = 0` nothing changes and no storage is needed (R53; decision D18). -/
def segReplaceZero (pool : Option Nat) (st : Store) (src : Word) : Except Cause Store :=
  match st.segment src with
  | none => .error (.inactiveSegment src)
  | some seg =>
    if src = 0 then .ok st
    else if fitsPool pool (st.wordsInUse + seg.len.toNat) then .ok (st.setSlot 0 (.active seg))
    else .error .resourceExhausted

end Sys2Proof.Machine
end

