-- ==== Sys2Proof/Machine/Ops.lean ====
section
/-!
DEFINITION. The named operations on the machine's state: the register file (10_state.md R11, R12),
the program counter (R13, R14), the run status (R15), the output and input channels (R25, R26), and
fault entry (60_exceptions.md R124), the one way an instruction or the engine raises a fault.
-/

namespace Sys2Proof.Machine

/-- What a step or a meaning answers. -/
abbrev Result := Host.Outcome State Fault Refusal

/-! ## Registers, program counter, status -/

/-- `x[r]` (10_state.md R11: no register is hardwired). -/
def State.readReg (s : State) (r : Reg) : Word := s.regs[r]

/-- `x[r] <- v`. -/
def State.writeReg (s : State) (r : Reg) (v : Word) : State := { s with regs := s.regs.set r v }

/-- `pc <- t`. -/
def State.setPc (s : State) (t : Word) : State := { s with pc := t }

/-- The advance of the program counter by one word at fetch (40_engine.md R81; 10_state.md R14). -/
def State.advance (s : State) : State := s.setPc (s.pc + 1)

/-- The program-load interface closed: a load has used it, or a step begins (10_state.md R24; log
entry 25). -/
def State.closeLoad (s : State) : State := { s with loadOpen := false }

/-- The program counter back at the instruction just fetched: what a step leaves that has not
completed, because IN still waits (40_engine.md R87: while it waits no state changes; log entry 4). -/
def State.retry (s : State) : State := s.setPc (s.pc - 1)

/-- `status <- halted` (44_control.md R110). -/
def State.halt (s : State) : State := { s with status := .halted }

/-- The state with the segment store replaced. -/
def State.setStore (s : State) (st : Store) : State := { s with store := st }

/-! ## Channels -/

/-- `Out(b)`: append a byte to the output channel (10_state.md R25). -/
def State.emit (s : State) (b : Byte) : State := { s with output := s.output ++ [b] }

/-- The state with the coming answers of the input channel replaced. -/
def State.setInput (s : State) (as : List Answer) : State := { s with input := as }

/-- `In()`: the host's next answer and the state after it was given; `none` while the host has not
answered (10_state.md R26; decision D6; log entry 5). -/
def State.takeAnswer (s : State) : Option (Answer × State) :=
  match s.input with
  | [] => none
  | a :: rest => some (a, s.setInput rest)

/-! ## Fault entry

There is no return from a fault (60_exceptions.md R128): no operation leaves `faulted`. -/

/-- `raise c`: `status <- faulted`, `fault_cause <- c`, and the step ends (60_exceptions.md R124).
The output so far stays, the input is asked for nothing more. Registers, pc and store of a faulted
machine are unspecified (R125; U2): they become free values (log entries 1 and 2). The free store is
taken in the model's canonical form, so that the form holds in every state. -/
def raise (c : Cause) (s : State) : State :=
  { s with
    status := .faulted
    faultCause := some c
    regs := (Config.untrusted c s).regs
    pc := (Config.untrusted c s).pc
    store := if (Config.untrusted c s).store.wf then (Config.untrusted c s).store else s.store
    freeDraws := s.freeDraws + 1 }

/-- End an instruction whose store operation may raise: on success with the state the instruction
makes of the result, else by fault entry with nothing of the instruction done (R84, R125). -/
def orRaise {α : Type} (s : State) (r : Except Cause α) (done : α → State) : Result :=
  match r with
  | .ok x => .next (done x)
  | .error c => .next (raise c s)

/-- The numeric code of the register fault_cause (60_exceptions.md R120; decision D7). -/
def causeCode : Option Cause → Nat
  | none => 0
  | some (.invalidOpcode _) => 1
  | some .divideByZero => 2
  | some (.inactiveSegment _) => 3
  | some (.offsetOutOfRange _ _) => 4
  | some .unmapSegmentZero => 5
  | some .resourceExhausted => 6

end Sys2Proof.Machine
end

