-- ==== Sys2Proof/Machine/Flags.lean ====
section
/-!
DEFINITION. The hardware has no flags, condition codes or predicate registers (10_state.md R21).
What takes their place are two tests of a register's value: CMOV's comparison with zero (41_alu.md
R90, R96) and OUT's comparison with 255 (45_io.md R115).
-/

namespace Sys2Proof.Machine

/-- CMOV's condition: not zero, on all 32 bits (41_alu.md R90). -/
def nonzero (v : Word) : Bool := decide (v ≠ 0)

/-- OUT's condition: at most 255, unsigned, on all 32 bits (45_io.md R115). -/
def fitsByte (v : Word) : Bool := decide (v.toNat ≤ Config.outMax)

end Sys2Proof.Machine
end

