-- ==== Sys2Proof/Syntax.lean ====
section
/-!
DEFINITION. The instructions, one constructor for each row of spec/opcode_table.json
(30_encoding.md R66), with the fields each one uses (R69: a field an instruction does not use is no
operand of it).
-/

namespace Sys2Proof

/-- The fourteen instructions. Operand order is the order of the encoding's fields A, B, C. -/
inductive Instr where
  /-- CMOV, opcode 0: conditional move (41_alu.md R90). -/
  | cmov (a b c : Reg)
  /-- SLOAD, opcode 1: segmented load (42_segment_access.md R100). -/
  | sload (a b c : Reg)
  /-- SSTORE, opcode 2: segmented store (42_segment_access.md R101). -/
  | sstore (a b c : Reg)
  /-- ADD, opcode 3 (41_alu.md R91). -/
  | add (a b c : Reg)
  /-- MUL, opcode 4 (41_alu.md R92). -/
  | mul (a b c : Reg)
  /-- DIV, opcode 5 (41_alu.md R93). -/
  | div (a b c : Reg)
  /-- NAND, opcode 6 (41_alu.md R94). -/
  | nand (a b c : Reg)
  /-- HALT, opcode 7 (44_control.md R110). -/
  | halt
  /-- MAP, opcode 8: map segment (43_segment_management.md R105). -/
  | map (b c : Reg)
  /-- UNMAP, opcode 9: unmap segment (43_segment_management.md R106). -/
  | unmap (c : Reg)
  /-- OUT, opcode 10: output (45_io.md R115). -/
  | out (c : Reg)
  /-- IN, opcode 11: input (45_io.md R116). -/
  | inp (c : Reg)
  /-- LOADP, opcode 12: load program (44_control.md R111). -/
  | loadp (b c : Reg)
  /-- LOADV, opcode 13: load value (41_alu.md R95); the immediate is the value of the 25-bit field. -/
  | loadv (a : Reg) (imm : Word)
deriving DecidableEq, Repr

/-- The opcode of an instruction (30_encoding.md R66). -/
def Instr.opcode : Instr → Nat
  | .cmov _ _ _ => 0
  | .sload _ _ _ => 1
  | .sstore _ _ _ => 2
  | .add _ _ _ => 3
  | .mul _ _ _ => 4
  | .div _ _ _ => 5
  | .nand _ _ _ => 6
  | .halt => 7
  | .map _ _ => 8
  | .unmap _ => 9
  | .out _ => 10
  | .inp _ => 11
  | .loadp _ _ => 12
  | .loadv _ _ => 13

end Sys2Proof
end

