-- ==== Sys2Proof/WellFormed.lean ====
section
/-!
DEFINITION. Well-formed instructions: those an instruction word can hold.
Register operands are in range by their type (10_state.md R11). The one check is on LOADV's
immediate, which has 25 bits (30_encoding.md R63, R65).
-/

namespace Sys2Proof

/-- The number of values of the immediate field, 2^25 (30_encoding.md R63). -/
def immLimit : Nat := 2 ^ 25

/-- Whether an instruction word holds the instruction: LOADV's immediate fits its field. -/
def Instr.wellFormed : Instr → Bool
  | .cmov _ _ _ => true
  | .sload _ _ _ => true
  | .sstore _ _ _ => true
  | .add _ _ _ => true
  | .mul _ _ _ => true
  | .div _ _ _ => true
  | .nand _ _ _ => true
  | .halt => true
  | .map _ _ => true
  | .unmap _ => true
  | .out _ => true
  | .inp _ => true
  | .loadp _ _ => true
  | .loadv _ imm => decide (imm.toNat < immLimit)

end Sys2Proof
end

