-- ==== Sys2Proof/Decode.lean ====
section
/-!
DEFINITION. The bit-field codec (30_encoding.md R70 to R72), the decoder built from it (R73), the
loader's conversion of image bytes to words (R77; 20_memory.md R32, R33) and the encoder (R74).
-/

namespace Sys2Proof

/-! ## The bit-field codec -/

/-- `extract_unsigned(w, k, o)`: the `k`-bit value at bits `[o, o + k)` of `w` (R70). The codec's
precondition (R72) is an argument, so the function is not defined outside it (log entry 20). -/
def extractUnsigned (w : Word) (k o : Nat) (_domain : k + o ≤ 32 := by decide) : Word :=
  BitVec.ofNat 32 (w.toNat / 2 ^ o % 2 ^ k)

/-- `insert_unsigned(w, k, o, v)`: `w` with bits `[o, o + k)` replaced by the low `k` bits of `v` (R71). -/
def insertUnsigned (w : Word) (k o : Nat) (v : Word) (domain : k + o ≤ 32 := by decide) : Word :=
  BitVec.ofNat 32
    (w.toNat - (extractUnsigned w k o domain).toNat * 2 ^ o + v.toNat % 2 ^ k * 2 ^ o)

/-! ## The decoder -/

/-- Why a word is no instruction. The only reason is an invalid opcode, 14 or 15 (R67). -/
inductive DecodeError where
  /-- `w[31:28]` is 14 or 15 (R67). Raised by the decoder for the fetched word `w`. Safe: the spec's own. -/
  | invalidOpcode (w : Word)
deriving DecidableEq, Repr

/-- The register index in the three bits at offset `o` (R62, R63). -/
def regField (w : Word) (o : Nat) (domain : 3 + o ≤ 32 := by decide) : Reg :=
  Fin.ofNat 8 (extractUnsigned w 3 o domain).toNat

/-- Decode one instruction word (R61 to R64, R66, R73). Bits 27..9 of a format-R word and register
fields that the instruction does not use have no effect (R68, R69; log entry 10). -/
def decode (w : Word) : Except DecodeError Instr :=
  match (extractUnsigned w 4 28).toNat with
  | 0 => .ok (.cmov (regField w 6) (regField w 3) (regField w 0))
  | 1 => .ok (.sload (regField w 6) (regField w 3) (regField w 0))
  | 2 => .ok (.sstore (regField w 6) (regField w 3) (regField w 0))
  | 3 => .ok (.add (regField w 6) (regField w 3) (regField w 0))
  | 4 => .ok (.mul (regField w 6) (regField w 3) (regField w 0))
  | 5 => .ok (.div (regField w 6) (regField w 3) (regField w 0))
  | 6 => .ok (.nand (regField w 6) (regField w 3) (regField w 0))
  | 7 => .ok .halt
  | 8 => .ok (.map (regField w 3) (regField w 0))
  | 9 => .ok (.unmap (regField w 0))
  | 10 => .ok (.out (regField w 0))
  | 11 => .ok (.inp (regField w 0))
  | 12 => .ok (.loadp (regField w 3) (regField w 0))
  | 13 => .ok (.loadv (regField w 25) (extractUnsigned w 25 0))
  | _ => .error (.invalidOpcode w)

/-- The host's question: the instruction the decoder reads from `nbits` bits holding `w`. Every
instruction is one 32-bit word (R60) and memory holds whole words, so the bits are the word; bits
from `nbits` up are 0, and an instruction of more than 32 bits does not exist. -/
def decodeTableWord (nbits w : Nat) : Option Instr :=
  if nbits ≤ 32 then (decode (BitVec.ofNat 32 (w % 2 ^ nbits))).toOption else none

/-! ## The loader's bytes -/

/-- The word of four image bytes, first byte in bits 31..24 (R77; 20_memory.md R32). -/
def wordOfBytes (b0 b1 b2 b3 : Byte) : Word :=
  insertUnsigned
    (insertUnsigned
      (insertUnsigned (insertUnsigned 0 8 24 (b0.setWidth 32)) 8 16 (b1.setWidth 32))
      8 8 (b2.setWidth 32))
    8 0 (b3.setWidth 32)

/-- The words of a program image: each group of four bytes, a trailing partial group dropped
(20_memory.md R32, R33). -/
def wordsOfBytes : List Byte → List Word
  | b0 :: b1 :: b2 :: b3 :: rest => wordOfBytes b0 b1 b2 b3 :: wordsOfBytes rest
  | _ => []

/-! ## The encoder -/

/-- The word of a format-R instruction, unused bits zero (R74). -/
def encodeR (op : Nat) (a b c : Reg) : Word :=
  BitVec.ofNat 32 (op * 2 ^ 28 + a.val * 64 + b.val * 8 + c.val)

/-- The word of a format-I instruction (R74). -/
def encodeI (a : Reg) (imm : Word) : Word :=
  BitVec.ofNat 32 (13 * 2 ^ 28 + a.val * 2 ^ 25 + imm.toNat)

/-- The instruction word of an instruction, unused bits and fields zero (R74, R75). -/
def encode : Instr → Word
  | .cmov a b c => encodeR 0 a b c
  | .sload a b c => encodeR 1 a b c
  | .sstore a b c => encodeR 2 a b c
  | .add a b c => encodeR 3 a b c
  | .mul a b c => encodeR 4 a b c
  | .div a b c => encodeR 5 a b c
  | .nand a b c => encodeR 6 a b c
  | .halt => encodeR 7 0 0 0
  | .map b c => encodeR 8 0 b c
  | .unmap c => encodeR 9 0 0 c
  | .out c => encodeR 10 0 0 c
  | .inp c => encodeR 11 0 0 c
  | .loadp b c => encodeR 12 0 b c
  | .loadv a imm => encodeI a imm

end Sys2Proof
end

