-- ==== Sys2Proof/Machine/Operands.lean ====
section
/-!
DEFINITION. Operand forms (30_encoding.md R65): the content of a register, which is
`State.readReg`, and the one immediate, LOADV's; and the forms a value takes at the I/O channels.
-/

namespace Sys2Proof.Machine

/-- `zext_32(imm)`: the 25-bit immediate as a word, upper bits 0 (30_encoding.md R65). -/
def zextImm (imm : Word) : Word := extractUnsigned imm 25 0

/-- The byte OUT sends: the low byte of the register (45_io.md R115). -/
def lowByte (v : Word) : Byte := v.setWidth 8

/-- The word IN writes for an answer: a byte zero-extended, or the end-of-stream marker
(45_io.md R116; decision D5; log entry 9). -/
def answerWord : Answer → Word
  | .byte b => b.setWidth 32
  | .eos => Config.eosMarker

end Sys2Proof.Machine
end

