-- ==== Sys2Proof/Machine/Alu.lean ====
section
/-!
DEFINITION. The ALU instructions CMOV, ADD, MUL, DIV, NAND, LOADV (41_alu.md). Each meaning is
applied to the state after fetch, whose pc is already advanced (10_state.md R14).
-/

namespace Sys2Proof.Machine

/-- `(v + w) mod 2^32` (41_alu.md R91). -/
def aluAdd (v w : Word) : Word := BitVec.ofNat 32 (v.toNat + w.toNat)

/-- `(v * w) mod 2^32` (R92). -/
def aluMul (v w : Word) : Word := BitVec.ofNat 32 (v.toNat * w.toNat)

/-- `v div w`, unsigned, truncated; a divisor 0 raises (R93). -/
def aluDiv (v w : Word) : Except Cause Word :=
  if w = 0 then .error .divideByZero else .ok (BitVec.ofNat 32 (v.toNat / w.toNat))

/-- `~(v & w)` on all 32 bits (R94). -/
def aluNand (v w : Word) : Word := ~~~(v &&& w)

/-- CMOV (R90): the move happens, or no register changes. -/
def execCmov (a b c : Reg) (s : State) : Result :=
  .next (if nonzero (s.readReg c) then s.writeReg a (s.readReg b) else s)

/-- ADD (R91). -/
def execAdd (a b c : Reg) (s : State) : Result :=
  .next (s.writeReg a (aluAdd (s.readReg b) (s.readReg c)))

/-- MUL (R92). -/
def execMul (a b c : Reg) (s : State) : Result :=
  .next (s.writeReg a (aluMul (s.readReg b) (s.readReg c)))

/-- DIV (R93): raises DivideByZero before anything is written. -/
def execDiv (a b c : Reg) (s : State) : Result :=
  orRaise s (aluDiv (s.readReg b) (s.readReg c)) fun q => s.writeReg a q

/-- NAND (R94). -/
def execNand (a b c : Reg) (s : State) : Result :=
  .next (s.writeReg a (aluNand (s.readReg b) (s.readReg c)))

/-- LOADV (R95). -/
def execLoadv (a : Reg) (imm : Word) (s : State) : Result :=
  .next (s.writeReg a (zextImm imm))

end Sys2Proof.Machine
end

