-- ==== Sys2Proof/Machine/Control.lean ====
section
/-!
DEFINITION. The control instructions HALT and LOADP (44_control.md).
-/

namespace Sys2Proof.Machine

/-- HALT (R110): pc keeps the value fetch gave it. -/
def execHalt (s : State) : Result := .next s.halt

/-- LOADP (R111): `SegReplaceZero(x[B])`, then `pc <- x[C]`. The target is not checked here. -/
def execLoadp (b c : Reg) (s : State) : Result :=
  orRaise s (segReplaceZero s.poolWords s.store (s.readReg b)) fun st =>
    (s.setStore st).setPc (s.readReg c)

end Sys2Proof.Machine
end

