-- ==== Sys2Proof/Machine/InputOutput.lean ====
section
/-!
DEFINITION. The input and output instructions OUT and IN (45_io.md).
-/

namespace Sys2Proof.Machine

/-- OUT (R115): a value above 255 is discarded silently. -/
def execOut (c : Reg) (s : State) : Result :=
  .next (if fitsByte (s.readReg c) then s.emit (lowByte (s.readReg c)) else s)

/-- IN (R116): the whole register is written. While the host has not answered, the instruction has
not completed and the state is the one before its step (40_engine.md R87; log entry 4). -/
def execIn (c : Reg) (s : State) : Result :=
  match s.takeAnswer with
  | some (a, t) => .next (t.writeReg c (answerWord a))
  | none => .next s.retry

end Sys2Proof.Machine
end

