-- ==== Sys2Proof/Machine/SegmentAccess.lean ====
section
/-!
DEFINITION. The segment access instructions SLOAD and SSTORE (42_segment_access.md).
-/

namespace Sys2Proof.Machine

/-- SLOAD (R100): `x[A] <- MemRead(x[B]:x[C], 1)`. -/
def execSload (a b c : Reg) (s : State) : Result :=
  orRaise s (memRead s.store (s.readReg b) (s.readReg c)) fun v => s.writeReg a v

/-- SSTORE (R101): `MemWrite(x[A]:x[B], 1, x[C])`. -/
def execSstore (a b c : Reg) (s : State) : Result :=
  orRaise s (memWrite s.store (s.readReg a) (s.readReg b) (s.readReg c)) fun st => s.setStore st

end Sys2Proof.Machine
end

