-- ==== Sys2Proof/Machine/SegmentManagement.lean ====
section
/-!
DEFINITION. The segment management instructions MAP and UNMAP (43_segment_management.md).
-/

namespace Sys2Proof.Machine

/-- MAP (R105): `x[B] <- SegMap(x[C])`; the count is read before the register is written. -/
def execMap (b c : Reg) (s : State) : Result :=
  orRaise s (segMap s.poolWords s.store (s.readReg c)) fun r => (s.setStore r.2).writeReg b r.1

/-- UNMAP (R106): `SegUnmap(x[C])`. -/
def execUnmap (c : Reg) (s : State) : Result :=
  orRaise s (segUnmap s.store (s.readReg c)) fun st => s.setStore st

end Sys2Proof.Machine
end

