-- ==== Sys2Proof/Machine/Fetch.lean ====
section
/-!
DEFINITION. Fetch and decode as the engine does them (40_engine.md R81 to R83), and the placing of
an instruction where the next fetch finds it.
-/

namespace Sys2Proof.Machine

/-- The word fetch reads: `MemRead(0:pc, 1)`, on segment 0 as it is now (R81, R82; 20_memory.md R52). -/
def fetchWord (s : State) : Except Cause Word := memRead s.store 0 s.pc

/-- Fetch and decode: the instruction, or the fault fetch or decode raises (R82, R83). -/
def fetchInstr (s : State) : Except Cause Instr :=
  match fetchWord s with
  | .error c => .error c
  | .ok w =>
    match decode w with
    | .ok i => .ok i
    | .error (.invalidOpcode v) => .error (.invalidOpcode v)

/-- Segment 0 as it stands, or an empty one where a state that no run reaches has none. -/
def segmentZero (st : Store) : Segment := (st.segment 0).getD (Segment.zeros 0)

/-- Segment 0 with word `w` at offset `pc`, made just long enough to hold it. -/
def segmentWithWord (seg : Segment) (pc w : Word) : Segment :=
  Segment.write ⟨if seg.len.toNat ≤ pc.toNat then pc + 1 else seg.len, seg.cells⟩ pc w

/-- The state with an instruction word placed at `0:pc` and the engine running (log entry 16). -/
def placeWord (s : State) (w : Word) : State :=
  { s with
    status := .running
    store := s.store.setSlot 0 (.active (segmentWithWord (segmentZero s.store) s.pc w)) }

end Sys2Proof.Machine
end

