-- ==== Sys2Proof/Machine/Step.lean ====
section
/-!
DEFINITION. The step of the engine (40_engine.md R80, R88): fetch, decode, dispatch. In a terminal
state there is no step, which this total function says by leaving the state as it is (10_state.md
R15; log entry 3).
-/

namespace Sys2Proof.Machine

/-- One step of the engine. A step that begins closes the program-load interface (10_state.md R24). -/
def step (s : State) : Host.Outcome State Fault Refusal :=
  match s.status with
  | .halted => .next s
  | .faulted => .next s
  | .running =>
    match fetchInstr s with
    | .error c => .next (raise c s.closeLoad)
    | .ok i => exec i s.closeLoad.advance

/-- The state with an instruction of `nbits` bits `w` where the next step fetches (log entry 16). -/
def State.withFetchWord (s : State) (nbits w : Nat) : State :=
  placeWord s (BitVec.ofNat 32 (w % 2 ^ nbits))

end Sys2Proof.Machine
end

