-- ==== Sys2Proof/Machine/Boundary.lean ====
section
/-!
DEFINITION. The host's side of the machine: the program-load interface (10_state.md R24), boot
(70_reset_and_hazards.md R142) and the status output (10_state.md R27; 60_exceptions.md R133).
-/

namespace Sys2Proof.Machine

/-- Whether the load interface takes an image of `n` words: at most IMAGE_MAX_WORDS, and within the
pool (10_state.md R24; 20_memory.md R53). -/
def imageFits (pool : Option Nat) (n : Nat) : Bool :=
  decide (n ≤ Config.imageMaxWords) && fitsPool pool n

/-- The program-load interface: segment 0 becomes the image and nothing else changes (R24, R28), and
the interface closes. `none`: the image does not fit, which is the host's load fault before the
engine starts, or the interface is closed, because this run has used it or has begun its first step. -/
def State.loadImage (s : State) (image : List Word) : Option State :=
  if s.loadOpen && imageFits s.poolWords image.length then
    some (s.setStore (s.store.setSlot 0 (.active (Segment.ofWords image)))).closeLoad
  else none

/-- Boot (70_reset_and_hazards.md R142): reset, then the load of an image given as bytes; the state
of the engine's first step. The answers are those the host will give to In() (log entries 5, 16). -/
def State.boot (regs : Vector Word 8) (pool : Option Nat) (image : List Byte) (answers : List Answer) :
    Option State :=
  ((State.resetWith regs pool).setInput answers).loadImage (wordsOfBytes image)

/-- What the host can see of the machine: the status, and fault_cause when it is faulted
(10_state.md R27), and the output so far (R25, 60_exceptions.md R125). -/
structure HostView where
  status : Status
  faultCause : Option Cause
  output : List Byte
deriving DecidableEq, Repr

/-- The status output (10_state.md R27). -/
def State.hostView (s : State) : HostView where
  status := s.status
  faultCause := if s.status = .faulted then s.faultCause else none
  output := s.output

/-- The result the host derives from the status: success exactly for `halted`, failure for
`faulted`, none while running (60_exceptions.md R133; 70_reset_and_hazards.md R145). -/
def State.success (s : State) : Option Bool :=
  match s.status with
  | .running => none
  | .halted => some true
  | .faulted => some false

end Sys2Proof.Machine
end

