-- ==== Sys2Proof/Safety.lean ====
section
/-!
DEFINITION. The terms that statements about the machine use: the fields of an instruction word, what
an instruction leaves unchanged (its frame), what fault entry shows, and the invariants of the spec
(10_state.md R18; 20_memory.md R53).
-/

namespace Sys2Proof.Machine

/-! ## Fields of an instruction word (00_scope.md R8: `w[hi:lo]`) -/

/-- `w[hi:lo]`, as a number. -/
def bitsOf (w : Word) (hi lo : Nat) : Nat := w.toNat / 2 ^ lo % 2 ^ (hi + 1 - lo)

/-- The register index `w[lo+2:lo]`. -/
def regAt (w : Word) (lo : Nat) : Reg := Fin.ofNat 8 (bitsOf w (lo + 2) lo)

/-- How many of the bits below the opcode an instruction uses, from bit 0 up; the bits between them
and the opcode are ignored (30_encoding.md R66, columns "fields read" and "fields ignored"). -/
def lowBitsUsed : Instr → Nat
  | .cmov _ _ _ => 9
  | .sload _ _ _ => 9
  | .sstore _ _ _ => 9
  | .add _ _ _ => 9
  | .mul _ _ _ => 9
  | .div _ _ _ => 9
  | .nand _ _ _ => 9
  | .halt => 0
  | .map _ _ => 6
  | .unmap _ => 3
  | .out _ => 3
  | .inp _ => 3
  | .loadp _ _ => 6
  | .loadv _ _ => 28

/-- Every word with opcode `op` is the instruction with the register fields A, B and C. -/
def DecodesThree (op : Nat) (mk : Reg → Reg → Reg → Instr) : Prop :=
  ∀ w, bitsOf w 31 28 = op → decode w = .ok (mk (regAt w 6) (regAt w 3) (regAt w 0))

/-- Every word with opcode `op` is the instruction with the register fields B and C. -/
def DecodesTwo (op : Nat) (mk : Reg → Reg → Instr) : Prop :=
  ∀ w, bitsOf w 31 28 = op → decode w = .ok (mk (regAt w 3) (regAt w 0))

/-- Every word with opcode `op` is the instruction with the register field C. -/
def DecodesOne (op : Nat) (mk : Reg → Instr) : Prop :=
  ∀ w, bitsOf w 31 28 = op → decode w = .ok (mk (regAt w 0))

/-- The instructions that never fault (60_exceptions.md R120). -/
def neverFaults : Instr → Bool
  | .cmov _ _ _ => true
  | .sload _ _ _ => false
  | .sstore _ _ _ => false
  | .add _ _ _ => true
  | .mul _ _ _ => true
  | .div _ _ _ => false
  | .nand _ _ _ => true
  | .halt => true
  | .map _ _ => false
  | .unmap _ => false
  | .out _ => true
  | .inp _ => true
  | .loadp _ _ => false
  | .loadv _ _ => true

/-- The register an instruction writes, if it writes one (10_state.md R12). -/
def destination : Instr → Option Reg
  | .cmov a _ _ => some a
  | .sload a _ _ => some a
  | .sstore _ _ _ => none
  | .add a _ _ => some a
  | .mul a _ _ => some a
  | .div a _ _ => some a
  | .nand a _ _ => some a
  | .halt => none
  | .map b _ => some b
  | .unmap _ => none
  | .out _ => none
  | .inp c => some c
  | .loadp _ _ => none
  | .loadv a _ => some a

/-! ## Frames -/

/-- The whole segment store is as before: every word of every segment reads as before, every
identifier is active or not as before, free list and identifier counter are as before. -/
def StoreUnchanged (s t : State) : Prop :=
  (∀ id off, memRead t.store id off = memRead s.store id off) ∧
  (∀ id, t.store.slot id = s.store.slot id) ∧
  t.store.free = s.store.free ∧ t.store.nextId = s.store.nextId

/-- Every register is as before. -/
def RegistersUnchanged (s t : State) : Prop := ∀ q, t.readReg q = s.readReg q

/-- Every register but one is as before. -/
def RegistersUnchangedBut (r : Reg) (s t : State) : Prop := ∀ q, q ≠ r → t.readReg q = s.readReg q

/-- The run status and the fault cause are as before. -/
def StatusUnchanged (s t : State) : Prop := t.status = s.status ∧ t.faultCause = s.faultCause

/-- The output channel and the pending answers of the input channel are as before. -/
def ChannelsUnchanged (s t : State) : Prop := t.output = s.output ∧ t.input = s.input

/-- The program-load interface (open or closed) and the model's own parameter and counter are as
before. -/
def ModelUnchanged (s t : State) : Prop :=
  t.loadOpen = s.loadOpen ∧ t.poolWords = s.poolWords ∧ t.freeDraws = s.freeDraws

/-- Nothing but register `r` changed since dispatch began. -/
def OnlyRegister (r : Reg) (s t : State) : Prop :=
  RegistersUnchangedBut r s t ∧ t.pc = s.pc ∧ StatusUnchanged s t ∧ StoreUnchanged s t ∧
  ChannelsUnchanged s t ∧ ModelUnchanged s t

/-- Nothing but the segment store changed since dispatch began. -/
def OnlyStore (s t : State) : Prop :=
  RegistersUnchanged s t ∧ t.pc = s.pc ∧ StatusUnchanged s t ∧ ChannelsUnchanged s t ∧
  ModelUnchanged s t

/-- All that fault entry shows (60_exceptions.md R124, R125): the status, the cause, the output and
the input as they were, and the pool parameter. -/
def Raised (c : Cause) (s t : State) : Prop :=
  t.status = .faulted ∧ t.faultCause = some c ∧ ChannelsUnchanged s t ∧ t.poolWords = s.poolWords

/-- What MAP leaves: register `b` holds `id`, segment `id` is active with `n` words, each 0, every
other identifier is as before, and nothing else but free list and counter changed. -/
def Mapped (b : Reg) (id n : Word) (s t : State) : Prop :=
  t.readReg b = id ∧ RegistersUnchangedBut b s t ∧ t.pc = s.pc ∧ StatusUnchanged s t ∧
  (∃ seg, t.store.segment id = some seg ∧ seg.len = n) ∧
  (∀ off : Word, off.toNat < n.toNat → memRead t.store id off = .ok 0) ∧
  (∀ j, j ≠ id → t.store.slot j = s.store.slot j) ∧
  (∀ j off, j ≠ id → memRead t.store j off = memRead s.store j off) ∧
  ChannelsUnchanged s t ∧ ModelUnchanged s t

/-- When a step of a running engine raises a fault: the conditions of the table of 60_exceptions.md
R120, in the terms of the state before the step. -/
def faultCondition (s : State) : Cause → Prop
  | .invalidOpcode w => fetchWord s = .ok w ∧ 14 ≤ bitsOf w 31 28
  | .divideByZero => ∃ a b c, fetchInstr s = .ok (.div a b c) ∧ s.readReg c = 0
  | .inactiveSegment id =>
    s.store.segment id = none ∧
      ((∃ a b c, fetchInstr s = .ok (.sload a b c) ∧ id = s.readReg b) ∨
       (∃ a b c, fetchInstr s = .ok (.sstore a b c) ∧ id = s.readReg a) ∨
       (∃ b c, fetchInstr s = .ok (.loadp b c) ∧ id = s.readReg b) ∨
       (∃ c, fetchInstr s = .ok (.unmap c) ∧ id = s.readReg c ∧ id ≠ 0))
  | .offsetOutOfRange id off =>
    ∃ seg, s.store.segment id = some seg ∧ seg.len.toNat ≤ off.toNat ∧
      ((id = 0 ∧ off = s.pc) ∨
       (∃ a b c, fetchInstr s = .ok (.sload a b c) ∧ id = s.readReg b ∧ off = s.readReg c) ∨
       (∃ a b c, fetchInstr s = .ok (.sstore a b c) ∧ id = s.readReg a ∧ off = s.readReg b))
  | .unmapSegmentZero => ∃ c, fetchInstr s = .ok (.unmap c) ∧ s.readReg c = 0
  | .resourceExhausted =>
    (∃ b c, fetchInstr s = .ok (.map b c) ∧
      ((s.store.free = [] ∧ Config.idLimit ≤ s.store.nextId) ∨
       fitsPool s.poolWords (s.store.wordsInUse + (s.readReg c).toNat) = false)) ∨
    (∃ b c seg, fetchInstr s = .ok (.loadp b c) ∧ s.readReg b ≠ 0 ∧
      s.store.segment (s.readReg b) = some seg ∧
      fitsPool s.poolWords (s.store.wordsInUse + seg.len.toNat) = false)

/-! ## Invariants -/

/-- The invariants of the segment table (10_state.md R18, R20). -/
structure Store.Sound (st : Store) : Prop where
  /-- Identifier 0 is always active. -/
  zero_active : ∃ seg, st.slot 0 = some (.active seg)
  /-- The identifiers of the free list are exactly the tombstones. -/
  free_iff_tombstone : ∀ id, id ∈ st.free ↔ st.slot id = some .tombstone
  /-- The free list holds no identifier twice. -/
  free_nodup : st.free.Nodup
  /-- An identifier has been issued (active or tombstone) exactly if it is below next_id. -/
  issued_iff : ∀ id : Word, st.slot id ≠ none ↔ id.toNat < st.nextId
  /-- next_id is in 1 .. 2^32. -/
  nextId_range : 1 ≤ st.nextId ∧ st.nextId ≤ Config.idLimit

/-- The invariant of the machine: memory has its canonical form; a cause is recorded exactly when
the status is faulted; unless the machine is faulted, the segment table is sound; and the load
interface is open only in a machine as reset left it (10_state.md R24, R28). -/
structure State.Sound (s : State) : Prop where
  canonical : s.store.wf = true
  cause_iff : s.status = .faulted ↔ s.faultCause ≠ none
  store_sound : s.status ≠ .faulted → s.store.Sound
  load_window : s.loadOpen = true →
    s.status = .running ∧ s.pc = 0 ∧ s.store = Store.initial ∧ s.output = []

/-- The words in use are within the pool (20_memory.md R53), unless the machine is faulted. -/
def State.WithinPool (s : State) : Prop :=
  s.status ≠ .faulted → fitsPool s.poolWords s.store.wordsInUse = true

end Sys2Proof.Machine
end

