-- ==== Sys2Proof/Certificates/Slice0/Obligations.lean ====
section
/-!
DEFINITION. The statements about the machine. Each docstring names the rules of spec/ it rests on.
A statement about `exec` is about the state that fetch hands to dispatch, whose pc is already the
offset of the next instruction (10_state.md R14); `Obligations.StepRunsTheDecodedInstruction` links
the two. Of a faulted machine a statement says the status, the cause and the channels, and nothing
else (60_exceptions.md R125; log entry 1).
-/

open Sys2Proof Sys2Proof.Machine

/-! ## Encoding -/

/-- Decoding the word of an instruction gives the instruction back (30_encoding.md R74, which the
spec derives from R70 and R71). -/
def Obligations.DecodeInvertsEncode : Prop :=
  ∀ i : Instr, i.wellFormed = true → decode (encode i) = .ok i

/-- A decoded instruction is well formed, its encoding is the word with the ignored bits cleared, and
every word with the same used bits decodes to it (30_encoding.md R66, R68, R69; that the other bits
are ignored is the spec's decision D4, log entry 10). -/
def Obligations.EncodeInvertsDecodeOnUsedBits : Prop :=
  ∀ (w : Word) (i : Instr), decode w = .ok i →
    i.wellFormed = true ∧
    (encode i).toNat = w.toNat / 2 ^ 28 * 2 ^ 28 + w.toNat % 2 ^ lowBitsUsed i ∧
    ∀ v : Word, v.toNat / 2 ^ 28 = w.toNat / 2 ^ 28 →
      v.toNat % 2 ^ lowBitsUsed i = w.toNat % 2 ^ lowBitsUsed i → decode v = .ok i

/-- Exactly the words with opcode 14 or 15 are no instructions, whatever their other bits; fetching
one faults with the word (30_encoding.md R67). That the register fault_cause records InvalidOpcode
with the word is the spec's decision D7 (60_exceptions.md R120; log entry 11). -/
def Obligations.OnlyOpcodesFourteenAndFifteenAreInvalid : Prop :=
  (∀ w : Word, decode w = .error (.invalidOpcode w) ↔ bitsOf w 31 28 = 14 ∨ bitsOf w 31 28 = 15) ∧
  (∀ w : Word, bitsOf w 31 28 < 14 → ∃ i, decode w = .ok i ∧ i.opcode = bitsOf w 31 28) ∧
  ∀ (s : State) (w : Word), s.status = .running → fetchWord s = .ok w → 14 ≤ bitsOf w 31 28 →
    ∃ t, step s = .next t ∧ Raised (.invalidOpcode w) s t

/-- Words written out by the spec decode to the instructions it says (95_test_vectors.md 2.2). -/
def Obligations.SpecWordsDecodeAsWritten : Prop :=
  decode 0x00000053 = .ok (.cmov 1 2 3) ∧ decode 0x300001FF = .ok (.add 7 7 7) ∧
  decode 0x3FFFFE0A = .ok (.add 0 1 2) ∧ decode 0x7FFFFFFF = .ok .halt ∧
  decode 0x800001D3 = .ok (.map 2 3) ∧ decode 0x900001F9 = .ok (.unmap 1) ∧
  decode 0xA00000FE = .ok (.out 6) ∧ decode 0xC000000A = .ok (.loadp 1 2) ∧
  decode 0xDFFFFFFF = .ok (.loadv 7 0x1FFFFFF) ∧
  decode 0xEFFFFFFF = .error (.invalidOpcode 0xEFFFFFFF)

/-- The word of each instruction is the sum the spec gives (30_encoding.md R74, R75). -/
def Obligations.EncodedWordsAreTheSpecsSums : Prop :=
  (∀ a b c : Reg,
    (encode (.cmov a b c)).toNat = a.val * 64 + b.val * 8 + c.val ∧
    (encode (.sload a b c)).toNat = 0x10000000 + a.val * 64 + b.val * 8 + c.val ∧
    (encode (.sstore a b c)).toNat = 0x20000000 + a.val * 64 + b.val * 8 + c.val ∧
    (encode (.add a b c)).toNat = 0x30000000 + a.val * 64 + b.val * 8 + c.val ∧
    (encode (.mul a b c)).toNat = 0x40000000 + a.val * 64 + b.val * 8 + c.val ∧
    (encode (.div a b c)).toNat = 0x50000000 + a.val * 64 + b.val * 8 + c.val ∧
    (encode (.nand a b c)).toNat = 0x60000000 + a.val * 64 + b.val * 8 + c.val) ∧
  (encode .halt).toNat = 0x70000000 ∧
  (∀ b c : Reg,
    (encode (.map b c)).toNat = 0x80000000 + b.val * 8 + c.val ∧
    (encode (.loadp b c)).toNat = 0xC0000000 + b.val * 8 + c.val) ∧
  (∀ c : Reg,
    (encode (.unmap c)).toNat = 0x90000000 + c.val ∧
    (encode (.out c)).toNat = 0xA0000000 + c.val ∧
    (encode (.inp c)).toNat = 0xB0000000 + c.val) ∧
  ∀ (a : Reg) (imm : Word), imm.toNat < 2 ^ 25 →
    (encode (.loadv a imm)).toNat = 0xD0000000 + a.val * 2 ^ 25 + imm.toNat

/-- The bit-field codec: the value of an extracted field, the value of an insertion, the round trip,
the bits outside the field, and the widths 0 and 32 (30_encoding.md R70, R71). -/
def Obligations.CodecExtractsAndInsertsFields : Prop :=
  (∀ (w v : Word) (k o : Nat) (h : k + o ≤ 32),
    (extractUnsigned w k o h).toNat = w.toNat / 2 ^ o % 2 ^ k ∧
    (insertUnsigned w k o v h).toNat =
      w.toNat - (extractUnsigned w k o h).toNat * 2 ^ o + v.toNat % 2 ^ k * 2 ^ o ∧
    insertUnsigned w k o (extractUnsigned w k o h) h = w ∧
    (∀ j, j < o ∨ o + k ≤ j → (insertUnsigned w k o v h).getLsbD j = w.getLsbD j) ∧
    (extractUnsigned (insertUnsigned w k o v h) k o h).toNat = v.toNat % 2 ^ k) ∧
  (∀ (w v : Word) (o : Nat) (h : 0 + o ≤ 32),
    extractUnsigned w 0 o h = 0 ∧ insertUnsigned w 0 o v h = w) ∧
  ∀ w v : Word, extractUnsigned w 32 0 = w ∧ insertUnsigned w 32 0 v = v

/-- The number of words of an image, what happens to trailing bytes, and that an image without a
whole word is no load fault and makes the first fetch fault (20_memory.md R33). -/
def Obligations.ImageLengthIsWholeWords : Prop :=
  (∀ bytes : List Byte, (wordsOfBytes bytes).length = bytes.length / 4) ∧
  (∀ (bytes : List Byte) (n : Nat) (tail : List Byte), bytes.length = 4 * n → tail.length < 4 →
    wordsOfBytes (bytes ++ tail) = wordsOfBytes bytes) ∧
  (∀ (regs : Vector Word 8) (bytes : List Byte) (answers : List Answer),
    bytes.length / 4 ≤ Config.imageMaxWords → ∃ s, State.boot regs none bytes answers = some s) ∧
  ∀ (regs : Vector Word 8) (pool : Option Nat) (bytes : List Byte) (answers : List Answer),
    bytes.length < 4 →
      ∃ s t, State.boot regs pool bytes answers = some s ∧ step s = .next t ∧
        Raised (.offsetOutOfRange 0 0) s t

/-- Word `i` of an image is its four bytes in big-endian order (20_memory.md R32). -/
def Obligations.ImageWordsAreBigEndian : Prop :=
  ∀ (bytes : List Byte) (i : Nat), i < bytes.length / 4 →
    ((wordsOfBytes bytes).getD i 0).toNat =
      (bytes.getD (4 * i) 0).toNat * 2 ^ 24 + (bytes.getD (4 * i + 1) 0).toNat * 2 ^ 16 +
      (bytes.getD (4 * i + 2) 0).toNat * 2 ^ 8 + (bytes.getD (4 * i + 3) 0).toNat

/-! ## Reset and boot -/

/-- The reset values (10_state.md R28). Registers 0, pc 0, fault cause none and next_id 1 are the
spec's own decisions (D1, D2, D7, D17; log entries 6, 7, 11, 14); the unbounded pool and the empty
input are the model's choice (log entries 8 and 5), and the open load interface is its form of R24
(log entry 25). -/
def Obligations.ResetLeavesTheSpecsValues : Prop :=
  (∀ r : Reg, State.reset.readReg r = 0) ∧ State.reset.pc = 0 ∧ State.reset.status = .running ∧
  State.reset.faultCause = none ∧
  (∃ seg, State.reset.store.segment 0 = some seg ∧ seg.len = 0) ∧
  (∀ id : Word, id ≠ 0 → State.reset.store.slot id = none) ∧
  State.reset.store.free = [] ∧ State.reset.store.nextId = 1 ∧ State.reset.output = [] ∧
  State.reset.loadOpen = true ∧
  State.reset.poolWords = none ∧ State.reset.input = []

/-- Boot gives the reset state with segment 0 the image and nothing else changed, exactly when the
image fits (70_reset_and_hazards.md R142; 10_state.md R24, R28; 20_memory.md R53). -/
def Obligations.BootLoadsTheImageIntoSegmentZero : Prop :=
  ∀ (regs : Vector Word 8) (pool : Option Nat) (bytes : List Byte) (answers : List Answer),
    (imageFits pool (bytes.length / 4) = false → State.boot regs pool bytes answers = none) ∧
    (imageFits pool (bytes.length / 4) = true →
      ∃ s, State.boot regs pool bytes answers = some s ∧
        (∀ r : Reg, s.readReg r = regs[r]) ∧ s.pc = 0 ∧ s.status = .running ∧ s.faultCause = none ∧
        (∃ seg, s.store.segment 0 = some seg ∧ seg.len.toNat = bytes.length / 4) ∧
        (∀ off : Word, off.toNat < bytes.length / 4 →
          memRead s.store 0 off = .ok ((wordsOfBytes bytes).getD off.toNat 0)) ∧
        (∀ id : Word, id ≠ 0 → s.store.slot id = none) ∧
        s.store.free = [] ∧ s.store.nextId = 1 ∧ s.output = [] ∧ s.loadOpen = false ∧ s.input = answers ∧
        s.poolWords = pool)

/-! ## The step -/

/-- A step of a running engine runs the instruction that the word at `0:pc` decodes to, on the state
whose pc is advanced by one and which is otherwise the same (40_engine.md R81), but that the load
interface is closed, the model's form of R24 (10_state.md; log entry 25). -/
def Obligations.StepRunsTheDecodedInstruction : Prop :=
  ∀ (s : State) (w : Word) (i : Instr), s.status = .running →
    memRead s.store 0 s.pc = .ok w → decode w = .ok i →
      step s = exec i s.closeLoad.advance ∧
        s.closeLoad.advance = { s with pc := s.pc + 1, loadOpen := false }

/-- A fetch at or beyond the length of segment 0 faults (40_engine.md R82, the spec's decision D3;
log entry 12). -/
def Obligations.FetchPastTheEndFaults : Prop :=
  ∀ (s : State) (seg : Segment), s.status = .running → s.store.segment 0 = some seg →
    seg.len.toNat ≤ s.pc.toNat → ∃ t, step s = .next t ∧ Raised (.offsetOutOfRange 0 s.pc) s t

/-- In a terminal state nothing happens any more: no step, no output, no request for input
(10_state.md R15; 40_engine.md R80, R86). That the model's step leaves the state as it is, is the
model's choice (log entry 3). -/
def Obligations.TerminalStatesStayAsTheyAre : Prop :=
  ∀ (s : State) (k : Nat), s.status ≠ .running →
    step s = .next s ∧ Sys2Proof.core.run k s = .next s

/-- A running engine becomes halted exactly by dispatching HALT (10_state.md R15;
70_reset_and_hazards.md R145). -/
def Obligations.HaltedExactlyByHalt : Prop :=
  ∀ s t : State, s.status = .running → step s = .next t →
    (t.status = .halted ↔ fetchInstr s = .ok .halt)

/-- No step of the machine is refused or stops the model (40_engine.md R88: a step completes or ends
in fault entry; log entry 23). -/
def Obligations.EveryStepAnswersANextState : Prop := ∀ s : State, ∃ t, step s = .next t

/-- A step that faults records one cause and leaves output and input as they were (60_exceptions.md
R124, R125). -/
def Obligations.FaultEntryShowsCauseAndOutput : Prop :=
  ∀ s t : State, s.status = .running → step s = .next t → t.status = .faulted →
    ∃ c, Raised c s t

/-- A step faults with a cause exactly under the condition the table of faults gives for it
(60_exceptions.md R120, R123; the names and the order of checks are the spec's decisions D7, D9). -/
def Obligations.FaultsAreExactlyTheTables : Prop :=
  ∀ (s t : State) (c : Cause), s.status = .running →
    (∃ seg, s.store.segment 0 = some seg) → step s = .next t →
      (t.status = .faulted ∧ t.faultCause = some c ↔ faultCondition s c)

/-- The code of the register fault_cause for each cause, and a step ends faulted exactly when the
host reads a code other than 0 (60_exceptions.md R120; 10_state.md R16, R27; the codes are the
spec's decision D7, log entry 11). -/
def Obligations.FaultCodesAreTheTables : Prop :=
  causeCode none = 0 ∧ (∀ w, causeCode (some (.invalidOpcode w)) = 1) ∧
  causeCode (some .divideByZero) = 2 ∧ (∀ id, causeCode (some (.inactiveSegment id)) = 3) ∧
  (∀ id off, causeCode (some (.offsetOutOfRange id off)) = 4) ∧
  causeCode (some .unmapSegmentZero) = 5 ∧ causeCode (some .resourceExhausted) = 6 ∧
  ∀ s t : State, s.status = .running → step s = .next t →
    (t.status = .faulted ↔ causeCode t.hostView.faultCause ≠ 0)

/-- CMOV, ADD, MUL, NAND, HALT, OUT, IN and LOADV never fault (60_exceptions.md R120). -/
def Obligations.EightInstructionsNeverFault : Prop :=
  ∀ (i : Instr) (s : State), neverFaults i = true → s.status ≠ .faulted →
    ∃ t, exec i s = .next t ∧ t.status ≠ .faulted ∧ t.faultCause = s.faultCause

/-- Where the program counter goes (10_state.md R14; 44_control.md R111). That a waiting IN leaves
the state as it is, is the model's form of R87 (log entry 4); that the load interface is closed then, is log entry 25. -/
def Obligations.ProgramCounterAfterAStep : Prop :=
  ∀ (s t : State) (i : Instr), s.status = .running → fetchInstr s = .ok i → step s = .next t →
    t.status ≠ .faulted →
      (∀ b c, i = .loadp b c → t.pc = s.readReg c) ∧
      (∀ c, i = .inp c → s.input = [] → t = s.closeLoad) ∧
      ((∀ b c, i ≠ .loadp b c) → (∀ c, i = .inp c → s.input ≠ []) → t.pc = s.pc + 1)

/-- An instruction changes at most its destination register (10_state.md R12). -/
def Obligations.OnlyTheDestinationRegisterChanges : Prop :=
  ∀ (s t : State) (i : Instr), s.status = .running → fetchInstr s = .ok i → step s = .next t →
    t.status ≠ .faulted → ∀ q, destination i ≠ some q → t.readReg q = s.readReg q

/-- Output only grows, by one byte, through an OUT of a value up to 255 (10_state.md R25). -/
def Obligations.OutputGrowsOnlyThroughOut : Prop :=
  ∀ s t : State, step s = .next t →
    t.output = s.output ∨
    ∃ (c : Reg) (b : Byte), s.status = .running ∧ fetchInstr s = .ok (.out c) ∧
      (s.readReg c).toNat ≤ 255 ∧ b.toNat = (s.readReg c).toNat ∧ t.output = s.output ++ [b]

/-- Input is consumed only by IN, one answer at a time (10_state.md R26). -/
def Obligations.InputIsTakenOnlyByIn : Prop :=
  ∀ s t : State, step s = .next t →
    t.input = s.input ∨
    ∃ (c : Reg) (x : Answer), s.status = .running ∧ fetchInstr s = .ok (.inp c) ∧
      s.input = x :: t.input

/-- What the host will answer makes no difference to a step that is no IN: but for the values that a
fault leaves unspecified, the two steps agree (10_state.md R26; 45_io.md R116). -/
def Obligations.PendingAnswersMatterOnlyToIn : Prop :=
  ∀ (s t : State) (answers : List Answer), s.status = .running →
    (∀ c, fetchInstr s ≠ .ok (.inp c)) → step s = .next t →
      ∃ t', step (s.setInput answers) = .next t' ∧ t'.hostView = t.hostView ∧
        (t.status ≠ .faulted → t' = t.setInput answers)

/-- The identifier counter rises only when MAP mints, by one (10_state.md R20; 20_memory.md R40). -/
def Obligations.CounterRisesOnlyByMinting : Prop :=
  ∀ s t : State, s.status = .running → step s = .next t → t.status ≠ .faulted →
    t.store.nextId = s.store.nextId ∨
    ∃ b c, fetchInstr s = .ok (.map b c) ∧ s.store.free = [] ∧
      t.store.nextId = s.store.nextId + 1 ∧ t.readReg b = BitVec.ofNat 32 s.store.nextId

/-- A step leaves an active segment other than 0 as it is, unless the step is an UNMAP of it or an
SSTORE into it, and the SSTORE keeps its length (10_state.md R17; 20_memory.md R54). -/
def Obligations.SegmentsChangeOnlyByStoreOrUnmap : Prop :=
  ∀ (s t : State) (id : Word) (seg : Segment), s.Sound → s.status = .running → step s = .next t →
    t.status ≠ .faulted → id ≠ 0 → s.store.segment id = some seg →
      t.store.segment id = some seg ∨
      (∃ c, fetchInstr s = .ok (.unmap c) ∧ s.readReg c = id ∧ t.store.segment id = none) ∨
      (∃ a b c seg', fetchInstr s = .ok (.sstore a b c) ∧ s.readReg a = id ∧
        t.store.segment id = some seg' ∧ seg'.len = seg.len ∧ seg'.read (s.readReg b) = s.readReg c ∧
        ∀ off, off ≠ s.readReg b → seg'.read off = seg.read off)

/-- The offset 0xFFFFFFFF is in range in no segment, so a fetch there always faults and the wrap of
the program counter is never reached (20_memory.md R31; 10_state.md R14). -/
def Obligations.LastOffsetIsNeverInRange : Prop :=
  (∀ (st : Store) (id v : Word), memRead st id 0xFFFFFFFF ≠ .ok v) ∧
  ∀ s : State, s.status = .running → s.pc = 0xFFFFFFFF →
    (∃ seg, s.store.segment 0 = some seg) →
      ∃ t, step s = .next t ∧ Raised (.offsetOutOfRange 0 0xFFFFFFFF) s t

/-! ## Invariants -/

/-- Every step keeps the invariant: memory in canonical form, a cause exactly when faulted, and,
unless faulted, the invariants of the segment table (10_state.md R18). The load interface is open
only in a machine as reset left it (R24; log entry 25). -/
def Obligations.EveryStepKeepsTheMachineSound : Prop :=
  ∀ s t : State, s.Sound → step s = .next t → t.Sound

/-- The invariant holds after reset, whatever the registers and the pool (10_state.md R18, R28). -/
def Obligations.ResetIsSound : Prop :=
  State.reset.Sound ∧ ∀ (regs : Vector Word 8) (pool : Option Nat), (State.resetWith regs pool).Sound

/-- Every step keeps the words in use within the pool (20_memory.md R53). -/
def Obligations.EveryStepKeepsThePoolBound : Prop :=
  ∀ s t : State, s.Sound → s.WithinPool → step s = .next t → t.WithinPool

/-- Boot gives a sound machine within its pool (70_reset_and_hazards.md R142; 10_state.md R18). -/
def Obligations.BootIsSoundAndWithinThePool : Prop :=
  ∀ (regs : Vector Word 8) (pool : Option Nat) (bytes : List Byte) (answers : List Answer) (s : State),
    State.boot regs pool bytes answers = some s → s.Sound ∧ s.WithinPool

/-! ## ALU instructions -/

/-- CMOV moves exactly when the condition register is not zero (41_alu.md R90). That bits 27 to 9 of
the word have no effect is the spec's decision D4 (30_encoding.md R68, R69; log entry 10). -/
def Obligations.CmovMovesWhenConditionIsNotZero : Prop :=
  (∀ (a b c : Reg) (s : State), s.readReg c ≠ 0 →
    ∃ t, exec (.cmov a b c) s = .next t ∧ t.readReg a = s.readReg b ∧ OnlyRegister a s t) ∧
  (∀ (a b c : Reg) (s : State), s.readReg c = 0 → exec (.cmov a b c) s = .next s) ∧
  DecodesThree 0 .cmov

/-- ADD writes the sum modulo 2^32 (41_alu.md R91). That bits 27 to 9 of the word have no effect is
the spec's decision D4 (30_encoding.md R68, R69; log entry 10). -/
def Obligations.AddWritesTheSumModuloWord : Prop :=
  (∀ (a b c : Reg) (s : State), ∃ t, exec (.add a b c) s = .next t ∧
    (t.readReg a).toNat = ((s.readReg b).toNat + (s.readReg c).toNat) % 2 ^ 32 ∧
    OnlyRegister a s t) ∧
  DecodesThree 3 .add

/-- MUL writes the low 32 bits of the exact product (41_alu.md R92). That bits 27 to 9 of the word
have no effect is the spec's decision D4 (30_encoding.md R68, R69; log entry 10). -/
def Obligations.MulWritesTheProductModuloWord : Prop :=
  (∀ (a b c : Reg) (s : State), ∃ t, exec (.mul a b c) s = .next t ∧
    (t.readReg a).toNat = ((s.readReg b).toNat * (s.readReg c).toNat) % 2 ^ 32 ∧
    OnlyRegister a s t) ∧
  DecodesThree 4 .mul

/-- DIV by a divisor that is not 0 writes the truncated unsigned quotient (41_alu.md R93). That bits
27 to 9 of the word have no effect is the spec's decision D4 (30_encoding.md R68, R69; log entry
10). -/
def Obligations.DivWritesTheUnsignedQuotient : Prop :=
  (∀ (a b c : Reg) (s : State), s.readReg c ≠ 0 → ∃ t, exec (.div a b c) s = .next t ∧
    (t.readReg a).toNat * (s.readReg c).toNat ≤ (s.readReg b).toNat ∧
    (s.readReg b).toNat < ((t.readReg a).toNat + 1) * (s.readReg c).toNat ∧
    OnlyRegister a s t) ∧
  DecodesThree 5 .div

/-- DIV by 0 always faults, whatever the dividend (41_alu.md R93; 60_exceptions.md R120). -/
def Obligations.DivByZeroFaults : Prop :=
  ∀ (a b c : Reg) (s : State), s.readReg c = 0 →
    ∃ t, exec (.div a b c) s = .next t ∧ Raised .divideByZero s t

/-- NAND writes the complement of the bitwise AND on all 32 bits (41_alu.md R94). That bits 27 to 9
of the word have no effect is the spec's decision D4 (30_encoding.md R68, R69; log entry 10). -/
def Obligations.NandWritesTheComplementOfAnd : Prop :=
  (∀ (a b c : Reg) (s : State), ∃ t, exec (.nand a b c) s = .next t ∧
    (∀ j, j < 32 → (t.readReg a).getLsbD j = !((s.readReg b).getLsbD j && (s.readReg c).getLsbD j)) ∧
    (t.readReg a).toNat = 0xFFFFFFFF - (s.readReg b &&& s.readReg c).toNat ∧
    OnlyRegister a s t) ∧
  DecodesThree 6 .nand

/-- LOADV writes its 25-bit immediate, zero-extended (41_alu.md R95). That an immediate of 2^25 or
more, which no word holds, acts as its low 25 bits is the model's choice (log entry 21). -/
def Obligations.LoadvWritesTheZeroExtendedImmediate : Prop :=
  (∀ (a : Reg) (imm : Word) (s : State), ∃ t, exec (.loadv a imm) s = .next t ∧
    (t.readReg a).toNat = imm.toNat % 2 ^ 25 ∧ OnlyRegister a s t) ∧
  ∀ w, bitsOf w 31 28 = 13 →
    ∃ imm : Word, decode w = .ok (.loadv (regAt w 25) imm) ∧ imm.toNat = bitsOf w 24 0

/-- The laws of the arithmetic that the spec derives (41_alu.md R96). -/
def Obligations.ArithmeticLawsOfTheAlu : Prop :=
  ∀ v w : Word,
    aluAdd v w = aluAdd w v ∧ aluMul v w = aluMul w v ∧ aluAdd v (aluNand v v) = 0xFFFFFFFF ∧
    aluAdd (aluAdd v (aluNand w w)) 1 = v - w ∧
    (w ≠ 0 → ∃ q, aluDiv v w = .ok q ∧ (aluMul q w).toNat ≤ v.toNat ∧
      v.toNat - (aluMul q w).toNat < w.toNat)

/-! ## Segment access -/

/-- SLOAD of a word in range of an active segment writes that word (42_segment_access.md R100). That
bits 27 to 9 of the word have no effect is the spec's decision D4 (30_encoding.md R68, R69; log
entry 10). -/
def Obligations.SloadWritesTheAddressedWord : Prop :=
  (∀ (a b c : Reg) (s : State) (seg : Segment), s.store.segment (s.readReg b) = some seg →
    (s.readReg c).toNat < seg.len.toNat →
      ∃ t, exec (.sload a b c) s = .next t ∧ t.readReg a = seg.read (s.readReg c) ∧
        memRead s.store (s.readReg b) (s.readReg c) = .ok (t.readReg a) ∧ OnlyRegister a s t) ∧
  DecodesThree 1 .sload

/-- SLOAD of an inactive segment or out of range faults, the active test first (42_segment_access.md
R100; 20_memory.md R36, the order being the spec's decision D9). -/
def Obligations.SloadFaultsOutsideActiveRange : Prop :=
  ∀ (a b c : Reg) (s : State),
    (s.store.segment (s.readReg b) = none →
      ∃ t, exec (.sload a b c) s = .next t ∧ Raised (.inactiveSegment (s.readReg b)) s t) ∧
    ∀ seg, s.store.segment (s.readReg b) = some seg → seg.len.toNat ≤ (s.readReg c).toNat →
      ∃ t, exec (.sload a b c) s = .next t ∧
        Raised (.offsetOutOfRange (s.readReg b) (s.readReg c)) s t

/-- SSTORE in range of an active segment stores the value at the address its registers name, and
changes no other word, no length and no part of the free list (42_segment_access.md R101;
20_memory.md R38). That bits 27 to 9 of the word have no effect is the spec's decision D4
(30_encoding.md R68, R69; log entry 10). -/
def Obligations.SstoreWritesOnlyTheAddressedWord : Prop :=
  (∀ (a b c : Reg) (s : State) (seg : Segment), s.store.segment (s.readReg a) = some seg →
    (s.readReg b).toNat < seg.len.toNat →
      ∃ t, exec (.sstore a b c) s = .next t ∧
        memRead t.store (s.readReg a) (s.readReg b) = .ok (s.readReg c) ∧
        (∀ id off, ¬(id = s.readReg a ∧ off = s.readReg b) →
          memRead t.store id off = memRead s.store id off) ∧
        (∀ id, id ≠ s.readReg a → t.store.slot id = s.store.slot id) ∧
        (∃ seg', t.store.segment (s.readReg a) = some seg' ∧ seg'.len = seg.len) ∧
        t.store.free = s.store.free ∧ t.store.nextId = s.store.nextId ∧ OnlyStore s t) ∧
  DecodesThree 2 .sstore

/-- SSTORE to an inactive segment or out of range faults (42_segment_access.md R101; 20_memory.md
R36, the order being the spec's decision D9). -/
def Obligations.SstoreFaultsOutsideActiveRange : Prop :=
  ∀ (a b c : Reg) (s : State),
    (s.store.segment (s.readReg a) = none →
      ∃ t, exec (.sstore a b c) s = .next t ∧ Raised (.inactiveSegment (s.readReg a)) s t) ∧
    ∀ seg, s.store.segment (s.readReg a) = some seg → seg.len.toNat ≤ (s.readReg b).toNat →
      ∃ t, exec (.sstore a b c) s = .next t ∧
        Raised (.offsetOutOfRange (s.readReg a) (s.readReg b)) s t

/-- Fetch sees segment 0 as it is (20_memory.md R52). An SSTORE in range of segment 0 completes, also
where it overwrites its own word, and the next fetch at its offset reads the stored word, at every
other offset what it read before; after LOADP the next fetch reads the source segment; and no other
step of a sound machine changes what fetch reads. -/
def Obligations.StoresToSegmentZeroAreFetched : Prop :=
  (∀ (s : State) (a b c : Reg) (seg : Segment), s.status = .running →
    fetchInstr s = .ok (.sstore a b c) → s.readReg a = 0 → s.store.segment 0 = some seg →
    (s.readReg b).toNat < seg.len.toNat →
      ∃ t, step s = .next t ∧ t.status = .running ∧
        fetchWord (t.setPc (s.readReg b)) = .ok (s.readReg c) ∧
        ∀ off, off ≠ s.readReg b → fetchWord (t.setPc off) = fetchWord (s.setPc off)) ∧
  (∀ (s t : State) (b c : Reg), s.status = .running → fetchInstr s = .ok (.loadp b c) →
    step s = .next t → t.status ≠ .faulted →
      ∀ off v, fetchWord (t.setPc off) = .ok v ↔ memRead s.store (s.readReg b) off = .ok v) ∧
  ∀ s t : State, s.Sound → s.status = .running → step s = .next t → t.status ≠ .faulted →
    (∀ b c, fetchInstr s ≠ .ok (.loadp b c)) →
    ∀ off, (∀ a b c, fetchInstr s = .ok (.sstore a b c) → s.readReg a = 0 → s.readReg b ≠ off) →
      fetchWord (t.setPc off) = fetchWord (s.setPc off)

/-! ## Segment management -/

/-- MAP takes the oldest freed identifier if there is one, else mints the next unused integer, and
the new segment has the requested length and all words zero (43_segment_management.md R105;
20_memory.md R39, R40). The pool bound is the spec's decision D10 (log entries 8 and 13). That bits
27 to 6 of the word have no effect is the spec's decision D4 (30_encoding.md R68, R69; log entry
10). -/
def Obligations.MapAllocatesAZeroedSegment : Prop :=
  (∀ (b c : Reg) (s : State) (id : Word) (rest : List Word), s.store.free = id :: rest →
    fitsPool s.poolWords (s.store.wordsInUse + (s.readReg c).toNat) = true →
      ∃ t, exec (.map b c) s = .next t ∧ Mapped b id (s.readReg c) s t ∧
        t.store.free = rest ∧ t.store.nextId = s.store.nextId) ∧
  (∀ (b c : Reg) (s : State), s.store.free = [] → s.store.nextId < 2 ^ 32 →
    fitsPool s.poolWords (s.store.wordsInUse + (s.readReg c).toNat) = true →
      ∃ t, exec (.map b c) s = .next t ∧
        Mapped b (BitVec.ofNat 32 s.store.nextId) (s.readReg c) s t ∧
        t.store.free = [] ∧ t.store.nextId = s.store.nextId + 1) ∧
  DecodesTwo 8 .map

/-- MAP faults when no identifier or no storage is left (20_memory.md R53, the spec's decision D10). -/
def Obligations.MapFaultsWhenExhausted : Prop :=
  ∀ (b c : Reg) (s : State),
    (s.store.free = [] ∧ 2 ^ 32 ≤ s.store.nextId) ∨
      fitsPool s.poolWords (s.store.wordsInUse + (s.readReg c).toNat) = false →
    ∃ t, exec (.map b c) s = .next t ∧ Raised .resourceExhausted s t

/-- The identifier MAP returns is never 0 and never that of an active segment (20_memory.md R39;
43_segment_management.md R105). -/
def Obligations.MapReturnsAnInactiveIdentifier : Prop :=
  ∀ (b c : Reg) (s t : State), s.Sound → s.status = .running → exec (.map b c) s = .next t →
    t.status ≠ .faulted →
      t.readReg b ≠ 0 ∧ s.store.segment (t.readReg b) = none ∧
      ∃ seg, t.store.segment (t.readReg b) = some seg

/-- UNMAP of an active segment other than 0 makes it a tombstone and appends its identifier to the
free list, and changes nothing else (43_segment_management.md R106; 20_memory.md R41). That bits 27
to 3 of the word have no effect is the spec's decision D4 (30_encoding.md R68, R69; log entry 10).
-/
def Obligations.UnmapFreesTheSegment : Prop :=
  (∀ (c : Reg) (s : State) (seg : Segment), s.readReg c ≠ 0 →
    s.store.segment (s.readReg c) = some seg →
      ∃ t, exec (.unmap c) s = .next t ∧ t.store.slot (s.readReg c) = some .tombstone ∧
        (∀ off, memRead t.store (s.readReg c) off = .error (.inactiveSegment (s.readReg c))) ∧
        (∀ id, id ≠ s.readReg c → t.store.slot id = s.store.slot id) ∧
        (∀ id off, id ≠ s.readReg c → memRead t.store id off = memRead s.store id off) ∧
        t.store.free = s.store.free ++ [s.readReg c] ∧ t.store.nextId = s.store.nextId ∧
        OnlyStore s t) ∧
  DecodesOne 9 .unmap

/-- UNMAP of identifier 0 and of an inactive identifier faults (43_segment_management.md R106). -/
def Obligations.UnmapFaultsOnZeroAndInactive : Prop :=
  ∀ (c : Reg) (s : State),
    (s.readReg c = 0 → ∃ t, exec (.unmap c) s = .next t ∧ Raised .unmapSegmentZero s t) ∧
    (s.readReg c ≠ 0 → s.store.segment (s.readReg c) = none →
      ∃ t, exec (.unmap c) s = .next t ∧ Raised (.inactiveSegment (s.readReg c)) s t)

/-- Identifiers are reused in the order they were freed: two UNMAPs and then two MAPs return the two
identifiers in that order (20_memory.md R40, R41; 43_segment_management.md R106). -/
def Obligations.FreedIdentifiersAreReusedInOrder : Prop :=
  ∀ (c1 c2 b1 n1 b2 n2 : Reg) (s s1 s2 s3 s4 : State), s.store.free = [] →
    exec (.unmap c1) s = .next s1 → exec (.unmap c2) s1 = .next s2 →
    exec (.map b1 n1) s2 = .next s3 → exec (.map b2 n2) s3 = .next s4 → s4.status = .running →
      s3.readReg b1 = s.readReg c1 ∧ s4.readReg b2 = s.readReg c2 ∧ s4.store.free = [] ∧
      s4.store.nextId = s.store.nextId

/-! ## Control -/

/-- HALT halts and changes nothing else (44_control.md R110). That bits 27 to 0 of the word have no
effect is the spec's decision D4 (30_encoding.md R68, R69; log entry 10). That the step of the
halted machine leaves it as it is, is the model's form (log entry 3). -/
def Obligations.HaltStopsAndChangesNothingElse : Prop :=
  (∀ s : State, ∃ t, exec .halt s = .next t ∧ t.status = .halted ∧ t.faultCause = s.faultCause ∧
    RegistersUnchanged s t ∧ t.pc = s.pc ∧ StoreUnchanged s t ∧ ChannelsUnchanged s t ∧
    ModelUnchanged s t ∧ step t = .next t ∧ t.success = some true) ∧
  ∀ w, bitsOf w 31 28 = 7 → decode w = .ok .halt

/-- LOADP from a segment other than 0 makes segment 0 a copy of it, leaves every other identifier as
it is, and jumps (44_control.md R111; 20_memory.md R42; the pool bound is the spec's decision D10).
That bits 27 to 6 of the word have no effect is the spec's decision D4 (30_encoding.md R68, R69; log
entry 10). -/
def Obligations.LoadpCopiesTheSegmentAndJumps : Prop :=
  (∀ (b c : Reg) (s : State) (seg : Segment), s.readReg b ≠ 0 →
    s.store.segment (s.readReg b) = some seg →
    fitsPool s.poolWords (s.store.wordsInUse + seg.len.toNat) = true →
      ∃ t, exec (.loadp b c) s = .next t ∧ t.pc = s.readReg c ∧
        (∃ seg0, t.store.segment 0 = some seg0 ∧ seg0.len = seg.len) ∧
        (∀ off : Word, off.toNat < seg.len.toNat →
          memRead t.store 0 off = memRead s.store (s.readReg b) off) ∧
        (∀ id, id ≠ 0 → t.store.slot id = s.store.slot id) ∧
        (∀ id off, id ≠ 0 → memRead t.store id off = memRead s.store id off) ∧
        t.store.free = s.store.free ∧ t.store.nextId = s.store.nextId ∧
        RegistersUnchanged s t ∧ StatusUnchanged s t ∧ ChannelsUnchanged s t ∧ ModelUnchanged s t) ∧
  DecodesTwo 12 .loadp

/-- LOADP from segment 0 is the plain jump: it changes the pc and nothing else and needs no storage
(44_control.md R111; 20_memory.md R42, R53, decision D18). -/
def Obligations.LoadpFromZeroIsThePlainJump : Prop :=
  ∀ (b c : Reg) (s : State) (seg : Segment), s.readReg b = 0 → s.store.segment 0 = some seg →
    ∃ t, exec (.loadp b c) s = .next t ∧ t.pc = s.readReg c ∧ StoreUnchanged s t ∧
      RegistersUnchanged s t ∧ StatusUnchanged s t ∧ ChannelsUnchanged s t ∧ ModelUnchanged s t

/-- LOADP from an inactive segment faults, and so does a copy that does not fit (44_control.md R111;
20_memory.md R42, R53, decision D10). -/
def Obligations.LoadpFaultsOnInactiveOrExhausted : Prop :=
  ∀ (b c : Reg) (s : State),
    (s.store.segment (s.readReg b) = none →
      ∃ t, exec (.loadp b c) s = .next t ∧ Raised (.inactiveSegment (s.readReg b)) s t) ∧
    ∀ seg, s.readReg b ≠ 0 → s.store.segment (s.readReg b) = some seg →
      fitsPool s.poolWords (s.store.wordsInUse + seg.len.toNat) = false →
        ∃ t, exec (.loadp b c) s = .next t ∧ Raised .resourceExhausted s t

/-- Replacing segment 0 by a copy of another segment is a deep copy, made whole: later writes to
either leave the other as it was, and unmapping the source leaves segment 0 whole (20_memory.md R43). -/
def Obligations.ReplacedSegmentZeroIsADeepCopy : Prop :=
  ∀ (pool : Option Nat) (st st' : Store) (src : Word), src ≠ 0 →
    segReplaceZero pool st src = .ok st' →
      (∀ off v, memRead st' 0 off = .ok v ↔ memRead st src off = .ok v) ∧
      (∀ k v st'', memWrite st' src k v = .ok st'' → ∀ off, memRead st'' 0 off = memRead st' 0 off) ∧
      (∀ k v st'', memWrite st' 0 k v = .ok st'' →
        ∀ off, memRead st'' src off = memRead st' src off) ∧
      (∀ st'', segUnmap st' src = .ok st'' → ∀ off, memRead st'' 0 off = memRead st' 0 off)

/-! ## Input and output -/

/-- OUT of a value up to 255 appends the byte and changes nothing else; a larger value has no effect
whatever and is no fault (45_io.md R115). That bits 27 to 3 of the word have no effect is the spec's
decision D4 (30_encoding.md R68, R69; log entry 10). That OUT completes in every state, and never
waits or fails, is the spec's decision D20 (log entry 17). -/
def Obligations.OutAppendsTheByteOrDiscards : Prop :=
  (∀ (c : Reg) (s : State), (s.readReg c).toNat ≤ 255 →
    ∃ t, exec (.out c) s = .next t ∧
      (∃ b : Byte, b.toNat = (s.readReg c).toNat ∧ t.output = s.output ++ [b]) ∧
      t.input = s.input ∧ RegistersUnchanged s t ∧ t.pc = s.pc ∧ StatusUnchanged s t ∧
      StoreUnchanged s t ∧ ModelUnchanged s t) ∧
  (∀ (c : Reg) (s : State), 255 < (s.readReg c).toNat → exec (.out c) s = .next s) ∧
  DecodesOne 10 .out

/-- IN with an answer given writes the whole register, a byte zero-extended and end of stream as
0xFFFFFFFF, and consumes that answer (45_io.md R116; the whole register is the spec's decision D5,
log entry 9). That bits 27 to 3 of the word have no effect is the spec's decision D4 (30_encoding.md
R68, R69; log entry 10). -/
def Obligations.InWritesTheAnswer : Prop :=
  (∀ (c : Reg) (s : State) (x : Answer) (rest : List Answer), s.input = x :: rest →
    ∃ t, exec (.inp c) s = .next t ∧
      (∀ b : Byte, x = .byte b → (t.readReg c).toNat = b.toNat) ∧
      (x = .eos → t.readReg c = 0xFFFFFFFF) ∧
      RegistersUnchangedBut c s t ∧ t.input = rest ∧ t.output = s.output ∧ t.pc = s.pc ∧
      StatusUnchanged s t ∧ StoreUnchanged s t ∧ ModelUnchanged s t) ∧
  DecodesOne 11 .inp

/-- While the host has not answered, a step at an IN changes nothing (40_engine.md R87; the form is
the model's choice, log entry 4). The one thing it can do, in a machine that no run reaches, is to
close a load interface that is still open, since the step has begun (log entry 25). -/
def Obligations.UnansweredInChangesNothing : Prop :=
  ∀ (c : Reg) (s : State), s.status = .running → fetchInstr s = .ok (.inp c) → s.input = [] →
    step s = .next { s with loadOpen := false } ∧ (s.loadOpen = false → step s = .next s)

/-! ## The host's placing of an instruction -/

/-- An instruction placed for the next fetch is the one the next step fetches, with registers, pc and
channels as they were (log entry 16: the model's form of the host's load, 10_state.md R24). -/
def Obligations.PlacedWordIsFetched : Prop :=
  ∀ (s : State) (w : Nat), s.pc.toNat < 2 ^ 32 - 1 →
    (s.withFetchWord 32 w).status = .running ∧
    fetchWord (s.withFetchWord 32 w) = .ok (BitVec.ofNat 32 w) ∧
    (s.withFetchWord 32 w).pc = s.pc ∧ RegistersUnchanged s (s.withFetchWord 32 w) ∧
    ChannelsUnchanged s (s.withFetchWord 32 w)

/-! ## The program-load interface -/

/-- The program-load interface is used once per run, between reset and the first step (10_state.md
R24; 70_reset_and_hazards.md R142): it takes an image exactly while it is open and the image fits,
it is open after reset, a load or a step of the engine closes it for good, and so no image is taken
after boot or after any step. The flag that records this is the model's form of R24 (log entry 25). -/
def Obligations.LoadInterfaceIsUsedOnceBeforeTheFirstStep : Prop :=
  (∀ (s : State) (image : List Word),
    (∃ t, s.loadImage image = some t) ↔
      s.loadOpen = true ∧ imageFits s.poolWords image.length = true) ∧
  (∀ (s t : State) (image : List Word), s.loadImage image = some t → t.loadOpen = false) ∧
  (∀ (regs : Vector Word 8) (pool : Option Nat), (State.resetWith regs pool).loadOpen = true) ∧
  (∀ s t : State, s.status = .running → step s = .next t → t.loadOpen = false) ∧
  (∀ (s t : State) (k : Nat) (image : List Word), s.loadOpen = false →
    Sys2Proof.core.run k s = .next t → t.loadImage image = none) ∧
  (∀ (regs : Vector Word 8) (pool : Option Nat) (bytes : List Byte) (answers : List Answer)
    (s t : State) (k : Nat) (image : List Word), State.boot regs pool bytes answers = some s →
      Sys2Proof.core.run k s = .next t → t.loadImage image = none) ∧
  ∀ (s : State) (image : List Word), s.Sound → s.status ≠ .running → s.loadImage image = none
end

