-- ==== Sys2Proof/Laws/State.lean ====
section
/-!
SUPPORT. What each update of the state does to each field: one lemma per field per update.
-/

namespace Sys2Proof.Machine

section Fields
variable (s : State) (r q : Reg) (v t : Word) (st : Store) (b : Byte) (as : List Answer) (c : Cause)

@[simp] theorem State.writeReg_pc : (s.writeReg r v).pc = s.pc := rfl
@[simp] theorem State.writeReg_status : (s.writeReg r v).status = s.status := rfl
@[simp] theorem State.writeReg_faultCause : (s.writeReg r v).faultCause = s.faultCause := rfl
@[simp] theorem State.writeReg_store : (s.writeReg r v).store = s.store := rfl
@[simp] theorem State.writeReg_output : (s.writeReg r v).output = s.output := rfl
@[simp] theorem State.writeReg_loadOpen : (s.writeReg r v).loadOpen = s.loadOpen := rfl
@[simp] theorem State.writeReg_input : (s.writeReg r v).input = s.input := rfl
@[simp] theorem State.writeReg_poolWords : (s.writeReg r v).poolWords = s.poolWords := rfl
@[simp] theorem State.writeReg_freeDraws : (s.writeReg r v).freeDraws = s.freeDraws := rfl

theorem State.readReg_writeReg : (s.writeReg r v).readReg q = if q = r then v else s.readReg q := by
  simp only [State.readReg, State.writeReg, Fin.getElem_fin, Vector.getElem_set, Fin.ext_iff, eq_comm]

@[simp] theorem State.readReg_writeReg_same : (s.writeReg r v).readReg r = v := by
  simp [State.readReg_writeReg]

theorem State.readReg_writeReg_other (h : q ≠ r) : (s.writeReg r v).readReg q = s.readReg q := by
  simp [State.readReg_writeReg, h]

@[simp] theorem State.setPc_pc : (s.setPc t).pc = t := rfl
@[simp] theorem State.setPc_regs : (s.setPc t).regs = s.regs := rfl
@[simp] theorem State.setPc_readReg : (s.setPc t).readReg q = s.readReg q := rfl
@[simp] theorem State.setPc_status : (s.setPc t).status = s.status := rfl
@[simp] theorem State.setPc_faultCause : (s.setPc t).faultCause = s.faultCause := rfl
@[simp] theorem State.setPc_store : (s.setPc t).store = s.store := rfl
@[simp] theorem State.setPc_output : (s.setPc t).output = s.output := rfl
@[simp] theorem State.setPc_loadOpen : (s.setPc t).loadOpen = s.loadOpen := rfl
@[simp] theorem State.setPc_input : (s.setPc t).input = s.input := rfl
@[simp] theorem State.setPc_poolWords : (s.setPc t).poolWords = s.poolWords := rfl
@[simp] theorem State.setPc_freeDraws : (s.setPc t).freeDraws = s.freeDraws := rfl

@[simp] theorem State.advance_pc : s.advance.pc = s.pc + 1 := rfl
@[simp] theorem State.advance_readReg : s.advance.readReg q = s.readReg q := rfl
@[simp] theorem State.advance_status : s.advance.status = s.status := rfl
@[simp] theorem State.advance_faultCause : s.advance.faultCause = s.faultCause := rfl
@[simp] theorem State.advance_store : s.advance.store = s.store := rfl
@[simp] theorem State.advance_output : s.advance.output = s.output := rfl
@[simp] theorem State.advance_loadOpen : s.advance.loadOpen = s.loadOpen := rfl
@[simp] theorem State.advance_input : s.advance.input = s.input := rfl
@[simp] theorem State.advance_poolWords : s.advance.poolWords = s.poolWords := rfl
@[simp] theorem State.advance_freeDraws : s.advance.freeDraws = s.freeDraws := rfl

@[simp] theorem State.closeLoad_loadOpen : s.closeLoad.loadOpen = false := rfl
@[simp] theorem State.closeLoad_pc : s.closeLoad.pc = s.pc := rfl
@[simp] theorem State.closeLoad_status : s.closeLoad.status = s.status := rfl
@[simp] theorem State.closeLoad_faultCause : s.closeLoad.faultCause = s.faultCause := rfl
@[simp] theorem State.closeLoad_store : s.closeLoad.store = s.store := rfl
@[simp] theorem State.closeLoad_output : s.closeLoad.output = s.output := rfl
@[simp] theorem State.closeLoad_input : s.closeLoad.input = s.input := rfl
@[simp] theorem State.closeLoad_poolWords : s.closeLoad.poolWords = s.poolWords := rfl
@[simp] theorem State.closeLoad_freeDraws : s.closeLoad.freeDraws = s.freeDraws := rfl
@[simp] theorem State.closeLoad_regs : s.closeLoad.regs = s.regs := rfl
@[simp] theorem State.closeLoad_readReg : s.closeLoad.readReg q = s.readReg q := rfl

/-- Closing a closed interface changes nothing. -/
theorem State.closeLoad_of_closed (h : s.loadOpen = false) : s.closeLoad = s := by
  cases s
  subst h
  rfl

@[simp] theorem State.retry_pc : s.retry.pc = s.pc - 1 := rfl
@[simp] theorem State.retry_readReg : s.retry.readReg q = s.readReg q := rfl
@[simp] theorem State.retry_status : s.retry.status = s.status := rfl
@[simp] theorem State.retry_faultCause : s.retry.faultCause = s.faultCause := rfl
@[simp] theorem State.retry_store : s.retry.store = s.store := rfl
@[simp] theorem State.retry_output : s.retry.output = s.output := rfl
@[simp] theorem State.retry_loadOpen : s.retry.loadOpen = s.loadOpen := rfl
@[simp] theorem State.retry_input : s.retry.input = s.input := rfl
@[simp] theorem State.retry_poolWords : s.retry.poolWords = s.poolWords := rfl
@[simp] theorem State.retry_freeDraws : s.retry.freeDraws = s.freeDraws := rfl

/-- A waiting IN leaves the state its step began in (40_engine.md R87). -/
@[simp] theorem State.retry_advance : s.advance.retry = s := by
  simp [State.retry, State.advance, State.setPc]

@[simp] theorem State.halt_pc : s.halt.pc = s.pc := rfl
@[simp] theorem State.halt_readReg : s.halt.readReg q = s.readReg q := rfl
@[simp] theorem State.halt_status : s.halt.status = .halted := rfl
@[simp] theorem State.halt_faultCause : s.halt.faultCause = s.faultCause := rfl
@[simp] theorem State.halt_store : s.halt.store = s.store := rfl
@[simp] theorem State.halt_output : s.halt.output = s.output := rfl
@[simp] theorem State.halt_loadOpen : s.halt.loadOpen = s.loadOpen := rfl
@[simp] theorem State.halt_input : s.halt.input = s.input := rfl
@[simp] theorem State.halt_poolWords : s.halt.poolWords = s.poolWords := rfl
@[simp] theorem State.halt_freeDraws : s.halt.freeDraws = s.freeDraws := rfl

@[simp] theorem State.setStore_pc : (s.setStore st).pc = s.pc := rfl
@[simp] theorem State.setStore_readReg : (s.setStore st).readReg q = s.readReg q := rfl
@[simp] theorem State.setStore_status : (s.setStore st).status = s.status := rfl
@[simp] theorem State.setStore_faultCause : (s.setStore st).faultCause = s.faultCause := rfl
@[simp] theorem State.setStore_store : (s.setStore st).store = st := rfl
@[simp] theorem State.setStore_output : (s.setStore st).output = s.output := rfl
@[simp] theorem State.setStore_loadOpen : (s.setStore st).loadOpen = s.loadOpen := rfl
@[simp] theorem State.setStore_input : (s.setStore st).input = s.input := rfl
@[simp] theorem State.setStore_poolWords : (s.setStore st).poolWords = s.poolWords := rfl
@[simp] theorem State.setStore_freeDraws : (s.setStore st).freeDraws = s.freeDraws := rfl

@[simp] theorem State.emit_pc : (s.emit b).pc = s.pc := rfl
@[simp] theorem State.emit_readReg : (s.emit b).readReg q = s.readReg q := rfl
@[simp] theorem State.emit_status : (s.emit b).status = s.status := rfl
@[simp] theorem State.emit_faultCause : (s.emit b).faultCause = s.faultCause := rfl
@[simp] theorem State.emit_store : (s.emit b).store = s.store := rfl
@[simp] theorem State.emit_output : (s.emit b).output = s.output ++ [b] := rfl
@[simp] theorem State.emit_loadOpen : (s.emit b).loadOpen = s.loadOpen := rfl
@[simp] theorem State.emit_input : (s.emit b).input = s.input := rfl
@[simp] theorem State.emit_poolWords : (s.emit b).poolWords = s.poolWords := rfl
@[simp] theorem State.emit_freeDraws : (s.emit b).freeDraws = s.freeDraws := rfl

@[simp] theorem State.setInput_pc : (s.setInput as).pc = s.pc := rfl
@[simp] theorem State.setInput_readReg : (s.setInput as).readReg q = s.readReg q := rfl
@[simp] theorem State.setInput_status : (s.setInput as).status = s.status := rfl
@[simp] theorem State.setInput_faultCause : (s.setInput as).faultCause = s.faultCause := rfl
@[simp] theorem State.setInput_store : (s.setInput as).store = s.store := rfl
@[simp] theorem State.setInput_output : (s.setInput as).output = s.output := rfl
@[simp] theorem State.setInput_loadOpen : (s.setInput as).loadOpen = s.loadOpen := rfl
@[simp] theorem State.setInput_input : (s.setInput as).input = as := rfl
@[simp] theorem State.setInput_poolWords : (s.setInput as).poolWords = s.poolWords := rfl
@[simp] theorem State.setInput_freeDraws : (s.setInput as).freeDraws = s.freeDraws := rfl

@[simp] theorem raise_status : (raise c s).status = .faulted := rfl
@[simp] theorem raise_faultCause : (raise c s).faultCause = some c := rfl
@[simp] theorem raise_output : (raise c s).output = s.output := rfl
@[simp] theorem raise_loadOpen : (raise c s).loadOpen = s.loadOpen := rfl
@[simp] theorem raise_input : (raise c s).input = s.input := rfl
@[simp] theorem raise_poolWords : (raise c s).poolWords = s.poolWords := rfl
@[simp] theorem raise_freeDraws : (raise c s).freeDraws = s.freeDraws + 1 := rfl

/-- Fault entry keeps the canonical form of memory. -/
theorem raise_store_wf (h : s.store.wf = true) : (raise c s).store.wf = true := by
  simp only [raise]
  split <;> assumption

end Fields

/-- What asking the input channel can answer. -/
theorem takeAnswer_eq_some {s t : State} {a : Answer} :
    s.takeAnswer = some (a, t) ↔ ∃ rest, s.input = a :: rest ∧ t = s.setInput rest := by
  unfold State.takeAnswer
  cases s.input <;> simp [eq_comm]

theorem takeAnswer_eq_none {s : State} : s.takeAnswer = none ↔ s.input = [] := by
  unfold State.takeAnswer
  cases s.input <;> simp

/-- All that ending a fallible instruction can answer. -/
theorem orRaise_eq_next {α : Type} {s t : State} {r : Except Cause α} {done : α → State} :
    orRaise s r done = .next t ↔
      (∃ x, r = .ok x ∧ t = done x) ∨ (∃ c, r = .error c ∧ t = raise c s) := by
  cases r <;> simp [orRaise, eq_comm]

end Sys2Proof.Machine
end

