-- ==== Sys2Proof/Laws/Store.lean ====
section
/-!
SUPPORT. Laws of the segment store: reading after writing, what each primitive can answer, and that
each keeps the canonical form.
-/

namespace Sys2Proof.Machine

/-! ## Lists of key and value -/

namespace Assoc
variable {β : Type}

theorem find_put_same (l : List (Nat × β)) (k : Nat) (x : β) : find (put l k x) k = some x := by
  induction l with
  | nil => simp [put, find]
  | cons p rest ih =>
    simp only [put]
    split
    · simp [find]
    · split
      · simp [find]
      · next _ hne => simp [find, Ne.symm hne, ih]

theorem find_put_other (l : List (Nat × β)) {k j : Nat} (h : j ≠ k) (x : β) :
    find (put l k x) j = find l j := by
  induction l with
  | nil => simp [put, find, Ne.symm h]
  | cons p rest ih =>
    simp only [put]
    split
    · simp [find, Ne.symm h]
    · split
      · next _ he => subst he; simp [find, Ne.symm h]
      · simp [find, ih]

theorem find_erase_same (l : List (Nat × β)) (k : Nat) : find (erase l k) k = none := by
  induction l with
  | nil => rfl
  | cons p rest ih =>
    simp only [erase]
    split
    · exact ih
    · next hne => simp [find, hne, ih]

theorem find_erase_other (l : List (Nat × β)) {k j : Nat} (h : j ≠ k) :
    find (erase l k) j = find l j := by
  induction l with
  | nil => rfl
  | cons p rest ih =>
    simp only [erase]
    split
    · next he => simp [find, ih, he, Ne.symm h]
    · simp [find, ih]

theorem find_eq_none_of_all_lt {l : List (Nat × β)} {k : Nat} (h : ∀ x ∈ l, k < x.1) :
    find l k = none := by
  induction l with
  | nil => rfl
  | cons p rest ih =>
    have hp := h p (by simp)
    simp [find, show ¬p.1 = k by omega, ih fun x hx => h x (by simp [hx])]

theorem mem_of_find {l : List (Nat × β)} {k : Nat} {x : β} (h : find l k = some x) : (k, x) ∈ l := by
  induction l with
  | nil => simp [find] at h
  | cons p rest ih =>
    obtain ⟨a, y⟩ := p
    simp only [find] at h
    split at h
    · next he => simp_all
    · simp [ih h]

theorem find_of_mem {l : List (Nat × β)} (hr : Rising l) {p : Nat × β} (h : p ∈ l) :
    find l p.1 = some p.2 := by
  induction l with
  | nil => simp at h
  | cons q rest ih =>
    obtain ⟨hq, hr⟩ := List.pairwise_cons.1 hr
    rcases List.mem_cons.1 h with rfl | h
    · simp [find]
    · simp [find, show ¬q.1 = p.1 from (hq p h).ne, ih hr h]

theorem mem_put {l : List (Nat × β)} {k : Nat} {x : β} {p : Nat × β} (h : p ∈ put l k x) :
    p = (k, x) ∨ p ∈ l := by
  induction l with
  | nil => simp_all [put]
  | cons q rest ih =>
    simp only [put] at h
    split at h
    · simpa using h
    · split at h
      · rcases List.mem_cons.1 h with h | h <;> simp [h]
      · rcases List.mem_cons.1 h with h | h
        · simp [h]
        · rcases ih h with h | h <;> simp [h]

theorem mem_erase {l : List (Nat × β)} {k : Nat} {p : Nat × β} (h : p ∈ erase l k) : p ∈ l := by
  induction l with
  | nil => simp [erase] at h
  | cons q rest ih =>
    simp only [erase] at h
    split at h
    · simp [ih h]
    · rcases List.mem_cons.1 h with h | h
      · simp [h]
      · simp [ih h]

theorem rising_put {l : List (Nat × β)} (hr : Rising l) (k : Nat) (x : β) : Rising (put l k x) := by
  induction l with
  | nil => simp [put]
  | cons q rest ih =>
    obtain ⟨hq, hrest⟩ := List.pairwise_cons.1 hr
    simp only [put]
    split
    · next hlt =>
      refine List.pairwise_cons.2 ⟨fun p hp => ?_, hr⟩
      rcases List.mem_cons.1 hp with rfl | hp
      · exact hlt
      · exact hlt.trans (hq p hp)
    · split
      · next _ he => exact List.pairwise_cons.2 ⟨fun p hp => he ▸ hq p hp, hrest⟩
      · next h1 h2 =>
        refine List.pairwise_cons.2 ⟨fun p hp => ?_, ih hrest⟩
        rcases mem_put hp with rfl | hp
        · exact show q.1 < k by omega
        · exact hq p hp

theorem rising_erase {l : List (Nat × β)} (hr : Rising l) (k : Nat) : Rising (erase l k) := by
  induction l with
  | nil => simp [erase]
  | cons q rest ih =>
    obtain ⟨hq, hrest⟩ := List.pairwise_cons.1 hr
    simp only [erase]
    split
    · exact ih hrest
    · exact List.pairwise_cons.2 ⟨fun p hp => hq p (mem_erase hp), ih hrest⟩

/-- A sum over the values of a list, where one value is put in place of another. -/
theorem sum_put {l : List (Nat × β)} (hr : Rising l) (f : β → Nat) (k : Nat) (x : β) :
    ((put l k x).map fun p => f p.2).sum + (find l k).elim 0 f = (l.map fun p => f p.2).sum + f x := by
  induction l with
  | nil => simp [put, find]
  | cons q rest ih =>
    obtain ⟨hq, hrest⟩ := List.pairwise_cons.1 hr
    simp only [put]
    split
    · next hlt =>
      have : find (q :: rest) k = none := by
        refine find_eq_none_of_all_lt fun p hp => ?_
        rcases List.mem_cons.1 hp with rfl | hp
        · exact hlt
        · exact hlt.trans (hq p hp)
      simp [this]; omega
    · split
      · next _ he => simp [find, he]; omega
      · next _ hne =>
        have := ih hrest
        simp only [find, Ne.symm hne, if_false, List.map_cons, List.sum_cons]
        omega

end Assoc

/-! ## Segments -/

theorem Segment.read_write_same (seg : Segment) (off v : Word) : (seg.write off v).read off = v := by
  simp only [Segment.read, Segment.write]
  split
  · next h => simp [Assoc.find_erase_same, h]
  · simp [Assoc.find_put_same]

theorem Segment.read_write_other (seg : Segment) {off j : Word} (h : j ≠ off) (v : Word) :
    (seg.write off v).read j = seg.read j := by
  have hn : j.toNat ≠ off.toNat := fun e => h (BitVec.eq_of_toNat_eq e)
  simp only [Segment.read, Segment.write]
  split
  · simp [Assoc.find_erase_other _ hn]
  · simp [Assoc.find_put_other _ hn]

@[simp] theorem Segment.write_len (seg : Segment) (off v : Word) : (seg.write off v).len = seg.len := rfl
@[simp] theorem Segment.zeros_len (n : Word) : (Segment.zeros n).len = n := rfl
@[simp] theorem Segment.zeros_read (n off : Word) : (Segment.zeros n).read off = 0 := rfl

theorem Segment.wf_iff (seg : Segment) :
    seg.wf = true ↔ Assoc.Rising seg.cells ∧ ∀ x ∈ seg.cells, x.1 < seg.len.toNat ∧ x.2 ≠ 0 := by
  simp [Segment.wf]

theorem Segment.zeros_wf (n : Word) : (Segment.zeros n).wf = true := by
  simp [Segment.wf_iff, Segment.zeros]

/-- A write in range keeps the canonical form of a segment. -/
theorem Segment.write_wf {seg : Segment} (h : seg.wf = true) {off : Word}
    (hoff : off.toNat < seg.len.toNat) (v : Word) : (seg.write off v).wf = true := by
  rw [Segment.wf_iff] at h ⊢
  simp only [Segment.write]
  split
  · exact ⟨Assoc.rising_erase h.1 _, fun x hx => h.2 x (Assoc.mem_erase hx)⟩
  · next hv =>
    refine ⟨Assoc.rising_put h.1 _ _, fun x hx => ?_⟩
    rcases Assoc.mem_put hx with rfl | hx
    · exact ⟨hoff, hv⟩
    · exact h.2 x hx

theorem Segment.cellsOf_bounds {k : Nat} {ws : List Word} {x : Nat × Word}
    (h : x ∈ Segment.cellsOf k ws) : k ≤ x.1 ∧ x.1 < k + ws.length ∧ x.2 ≠ 0 := by
  induction ws generalizing k with
  | nil => simp [Segment.cellsOf] at h
  | cons w rest ih =>
    simp only [Segment.cellsOf] at h
    simp only [List.length_cons]
    split at h
    · have := ih h
      exact ⟨by omega, by omega, this.2.2⟩
    · next hw =>
      rcases List.mem_cons.1 h with rfl | h
      · exact ⟨by simp, by simp, hw⟩
      · have := ih h
        exact ⟨by omega, by omega, this.2.2⟩

theorem Segment.rising_cellsOf (k : Nat) (ws : List Word) : Assoc.Rising (Segment.cellsOf k ws) := by
  induction ws generalizing k with
  | nil => simp [Segment.cellsOf]
  | cons w rest ih =>
    simp only [Segment.cellsOf]
    split
    · exact ih _
    · refine List.pairwise_cons.2 ⟨fun x hx => ?_, ih _⟩
      have := (Segment.cellsOf_bounds hx).1
      simp only
      omega

theorem Segment.find_cellsOf (k : Nat) (ws : List Word) (j : Nat) :
    (Assoc.find (Segment.cellsOf k ws) (k + j)).getD 0 = ws.getD j 0 := by
  induction ws generalizing k j with
  | nil => simp [Segment.cellsOf, Assoc.find]
  | cons w rest ih =>
    have hnone : Assoc.find (Segment.cellsOf (k + 1) rest) k = none :=
      Assoc.find_eq_none_of_all_lt fun x hx => by have := (Segment.cellsOf_bounds hx).1; omega
    simp only [Segment.cellsOf]
    cases j with
    | zero =>
      split
      · next h => simp [hnone, h]
      · simp [Assoc.find]
    | succ j =>
      have := ih (k + 1) j
      rw [show k + 1 + j = k + (j + 1) by omega] at this
      split
      · simpa using this
      · simpa [Assoc.find] using this

/-- The word at an offset of a loaded image (10_state.md R24). -/
theorem Segment.read_ofWords (ws : List Word) (off : Word) :
    (Segment.ofWords ws).read off = ws.getD off.toNat 0 := by
  simpa [Segment.read, Segment.ofWords] using Segment.find_cellsOf 0 ws off.toNat

theorem Segment.ofWords_wf {ws : List Word} (h : ws.length ≤ Config.imageMaxWords) :
    (Segment.ofWords ws).wf = true := by
  rw [Segment.wf_iff]
  refine ⟨Segment.rising_cellsOf 0 ws, fun x hx => ?_⟩
  have := Segment.cellsOf_bounds hx
  simp only [Config.imageMaxWords] at h
  simp only [Segment.ofWords, BitVec.toNat_ofNat]
  exact ⟨by omega, this.2.2⟩

/-! ## The segment table -/

theorem toNat_ne {a b : Word} (h : a ≠ b) : a.toNat ≠ b.toNat := fun e => h (BitVec.eq_of_toNat_eq e)

theorem Store.slot_setSlot_same (st : Store) (id : Word) (x : Slot) :
    (st.setSlot id x).slot id = some x := by
  simp [Store.slot, Store.setSlot, Assoc.find_put_same]

theorem Store.slot_setSlot_other (st : Store) {id j : Word} (h : j ≠ id) (x : Slot) :
    (st.setSlot id x).slot j = st.slot j := by
  simp [Store.slot, Store.setSlot, Assoc.find_put_other _ (toNat_ne h)]

@[simp] theorem Store.setSlot_free (st : Store) (id : Word) (x : Slot) :
    (st.setSlot id x).free = st.free := rfl
@[simp] theorem Store.setSlot_nextId (st : Store) (id : Word) (x : Slot) :
    (st.setSlot id x).nextId = st.nextId := rfl

/-- An identifier references a segment exactly if the table says it is active with it. -/
theorem Store.segment_eq_some {st : Store} {id : Word} {seg : Segment} :
    st.segment id = some seg ↔ st.slot id = some (.active seg) := by
  unfold Store.segment
  split <;> simp_all

/-- The segment an identifier references depends on its slot alone. -/
theorem Store.segment_congr {st st' : Store} {id : Word} (h : st'.slot id = st.slot id) :
    st'.segment id = st.segment id := by
  simp [Store.segment, h]

theorem Store.segment_setSlot_active (st : Store) (id : Word) (seg : Segment) :
    (st.setSlot id (.active seg)).segment id = some seg :=
  Store.segment_eq_some.2 (st.slot_setSlot_same id _)

theorem Store.segment_setSlot_tombstone (st : Store) (id : Word) :
    (st.setSlot id .tombstone).segment id = none := by
  simp [Store.segment, st.slot_setSlot_same id]

theorem Store.segment_setSlot_other (st : Store) {id j : Word} (h : j ≠ id) (x : Slot) :
    (st.setSlot id x).segment j = st.segment j :=
  Store.segment_congr (st.slot_setSlot_other h x)

theorem Store.wf_iff (st : Store) :
    st.wf = true ↔
      Assoc.Rising st.table ∧ ∀ x ∈ st.table, x.1 < Config.idLimit ∧ x.2.wf = true := by
  simp [Store.wf]

/-- Replacing the entry of one identifier by a canonical one keeps the canonical form. -/
theorem Store.setSlot_wf {st : Store} (h : st.wf = true) (id : Word) {x : Slot} (hx : x.wf = true) :
    (st.setSlot id x).wf = true := by
  rw [Store.wf_iff] at h ⊢
  refine ⟨Assoc.rising_put h.1 _ _, fun p hp => ?_⟩
  rcases Assoc.mem_put hp with rfl | hp
  · exact ⟨id.isLt, hx⟩
  · exact h.2 p hp

/-- The canonical form does not depend on the free list or the identifier counter. -/
theorem Store.wf_congr {st st' : Store} (h : st'.table = st.table) : st'.wf = st.wf := by
  simp [Store.wf, h]

theorem Store.segment_wf {st : Store} (h : st.wf = true) {id : Word} {seg : Segment}
    (hs : st.segment id = some seg) : seg.wf = true :=
  (((Store.wf_iff st).1 h).2 _ (Assoc.mem_of_find (Store.segment_eq_some.1 hs))).2

/-- What replacing one entry does to the words in use (20_memory.md R53). -/
theorem Store.wordsInUse_setSlot {st : Store} (h : st.wf = true) (id : Word) (x : Slot) :
    (st.setSlot id x).wordsInUse + (st.slot id).elim 0 Slot.words = st.wordsInUse + x.words :=
  Assoc.sum_put ((Store.wf_iff st).1 h).1 Slot.words id.toNat x

/-! ## What each primitive can answer -/

/-- The address decoder (20_memory.md R36). -/
theorem locate_eq_ok {st : Store} {id off : Word} {seg : Segment} :
    st.locate id off = .ok seg ↔ st.segment id = some seg ∧ off.toNat < seg.len.toNat := by
  unfold Store.locate
  cases h : st.segment id with
  | none => simp
  | some g =>
    simp only [Option.some.injEq]
    split
    · next hl => exact ⟨fun e => by cases e; exact ⟨rfl, hl⟩, fun e => by rw [e.1]⟩
    · next hl => exact ⟨nofun, fun e => absurd (e.1 ▸ e.2) hl⟩

theorem locate_eq_error {st : Store} {id off : Word} {c : Cause} :
    st.locate id off = .error c ↔
      (st.segment id = none ∧ c = .inactiveSegment id) ∨
      (∃ seg, st.segment id = some seg ∧ seg.len.toNat ≤ off.toNat ∧ c = .offsetOutOfRange id off) := by
  unfold Store.locate
  cases st.segment id with
  | none => simp [eq_comm]
  | some g =>
    simp only [reduceCtorEq, false_and, Option.some.injEq, false_or]
    split
    · next hl => exact ⟨nofun, fun ⟨_, e, h, _⟩ => by subst e; omega⟩
    · next hl =>
      exact ⟨fun e => by cases e; exact ⟨g, rfl, by omega, rfl⟩, fun ⟨_, _, _, e⟩ => by rw [e]⟩

/-- A read answers a word exactly if both tests pass (20_memory.md R37). -/
theorem memRead_eq_ok {st : Store} {id off v : Word} :
    memRead st id off = .ok v ↔
      ∃ seg, st.segment id = some seg ∧ off.toNat < seg.len.toNat ∧ v = seg.read off := by
  unfold memRead
  cases h : st.locate id off with
  | ok seg =>
    have := locate_eq_ok.1 h
    simp only [Except.ok.injEq]
    exact ⟨fun e => ⟨seg, this.1, this.2, e.symm⟩, fun ⟨g, hg, _, e⟩ => by
      rw [this.1] at hg; cases hg; exact e.symm⟩
  | error c =>
    refine ⟨nofun, fun ⟨g, hg, hl, _⟩ => ?_⟩
    rw [locate_eq_ok.2 ⟨hg, hl⟩] at h
    cases h

theorem memRead_eq_error {st : Store} {id off : Word} {c : Cause} :
    memRead st id off = .error c ↔ st.locate id off = .error c := by
  unfold memRead
  cases st.locate id off <;> simp

/-- A read depends on the slot of its identifier alone. -/
theorem memRead_congr {st st' : Store} {id : Word} (h : st'.slot id = st.slot id) (off : Word) :
    memRead st' id off = memRead st id off := by
  simp [memRead, Store.locate, Store.segment_congr h]

/-- All that a write can answer (20_memory.md R38). -/
theorem memWrite_eq_ok {st st' : Store} {id off v : Word} :
    memWrite st id off v = .ok st' ↔
      ∃ seg, st.segment id = some seg ∧ off.toNat < seg.len.toNat ∧
        st' = st.setSlot id (.active (seg.write off v)) := by
  unfold memWrite
  cases h : st.locate id off with
  | ok seg =>
    have := locate_eq_ok.1 h
    simp only [Except.ok.injEq]
    exact ⟨fun e => ⟨seg, this.1, this.2, e.symm⟩, fun ⟨g, hg, _, e⟩ => by
      rw [this.1] at hg; cases hg; exact e.symm⟩
  | error c =>
    refine ⟨nofun, fun ⟨g, hg, hl, _⟩ => ?_⟩
    rw [locate_eq_ok.2 ⟨hg, hl⟩] at h
    cases h

theorem memWrite_eq_error {st : Store} {id off v : Word} {c : Cause} :
    memWrite st id off v = .error c ↔ st.locate id off = .error c := by
  unfold memWrite
  cases st.locate id off <;> simp

/-- A read after a write to the same place gives the value written (20_memory.md R38, R47). -/
theorem memRead_memWrite_same {st st' : Store} {id off v : Word} (h : memWrite st id off v = .ok st') :
    memRead st' id off = .ok v := by
  obtain ⟨seg, hs, hl, rfl⟩ := memWrite_eq_ok.1 h
  exact memRead_eq_ok.2
    ⟨_, st.segment_setSlot_active id _, hl, (Segment.read_write_same seg off v).symm⟩

/-- A write leaves every other place alone (20_memory.md R38). -/
theorem memRead_memWrite_other {st st' : Store} {id off v : Word} (h : memWrite st id off v = .ok st')
    {j k : Word} (hne : ¬(j = id ∧ k = off)) : memRead st' j k = memRead st j k := by
  obtain ⟨seg, hs, hl, rfl⟩ := memWrite_eq_ok.1 h
  by_cases hj : j = id
  · subst hj
    have hk : k ≠ off := fun e => hne ⟨rfl, e⟩
    cases hr : memRead st j k with
    | ok w =>
      obtain ⟨g, hg, hgl, rfl⟩ := memRead_eq_ok.1 hr
      cases hs.symm.trans hg
      exact memRead_eq_ok.2
        ⟨_, st.segment_setSlot_active j _, hgl, (Segment.read_write_other seg hk v).symm⟩
    | error c =>
      rcases locate_eq_error.1 (memRead_eq_error.1 hr) with ⟨hn, _⟩ | ⟨g, hg, hgl, rfl⟩
      · exact nomatch hs.symm.trans hn
      · cases hs.symm.trans hg
        exact memRead_eq_error.2
          (locate_eq_error.2 (.inr ⟨_, st.segment_setSlot_active j _, hgl, rfl⟩))
  · exact memRead_congr (Store.slot_setSlot_other _ hj _) k

/-- All that choosing an identifier can answer (20_memory.md R40). -/
theorem newId_eq_some {st st' : Store} {id : Word} :
    newId st = some (id, st') ↔
      (∃ rest, st.free = id :: rest ∧ st' = { st with free := rest }) ∨
      (st.free = [] ∧ st.nextId < Config.idLimit ∧ id = BitVec.ofNat 32 st.nextId ∧
        st' = { st with nextId := st.nextId + 1 }) := by
  unfold newId
  cases st.free with
  | nil =>
    simp only
    split
    · next h => simp [h, eq_comm]
    · next h => simp [h]
  | cons f rest => simp [eq_comm]

theorem newId_eq_none {st : Store} :
    newId st = none ↔ st.free = [] ∧ Config.idLimit ≤ st.nextId := by
  unfold newId
  cases st.free with
  | nil =>
    simp only
    split
    · next h => simp [show ¬Config.idLimit ≤ st.nextId by omega]
    · next h => simp [show Config.idLimit ≤ st.nextId by omega]
  | cons f rest => simp

/-- All that an allocation can answer (20_memory.md R39, R53). -/
theorem segMap_eq_ok {pool : Option Nat} {st st' : Store} {n id : Word} :
    segMap pool st n = .ok (id, st') ↔
      ∃ st1, newId st = some (id, st1) ∧ fitsPool pool (st.wordsInUse + n.toNat) = true ∧
        st' = st1.setSlot id (.active (Segment.zeros n)) := by
  unfold segMap
  cases newId st with
  | none => simp
  | some r =>
    obtain ⟨id', st1⟩ := r
    simp only
    split
    · next h =>
      simp only [Except.ok.injEq, Prod.mk.injEq, Option.some.injEq]
      constructor
      · rintro ⟨rfl, rfl⟩; exact ⟨st1, ⟨rfl, rfl⟩, h, rfl⟩
      · rintro ⟨_, ⟨rfl, rfl⟩, _, rfl⟩; exact ⟨rfl, rfl⟩
    · next h =>
      refine ⟨nofun, fun ⟨_, _, hf, _⟩ => absurd hf h⟩

theorem segMap_eq_error {pool : Option Nat} {st : Store} {n : Word} {c : Cause} :
    segMap pool st n = .error c ↔
      c = .resourceExhausted ∧
        (newId st = none ∨ fitsPool pool (st.wordsInUse + n.toNat) = false) := by
  unfold segMap
  cases h : newId st with
  | none => simp [eq_comm (a := c)]
  | some r =>
    simp only [reduceCtorEq, false_or]
    split
    · next hf => simp [hf]
    · next hf => simp [hf, eq_comm (a := c)]

/-- All that a deallocation can answer (20_memory.md R41). -/
theorem segUnmap_eq_ok {st st' : Store} {id : Word} :
    segUnmap st id = .ok st' ↔
      id ≠ 0 ∧ (∃ seg, st.segment id = some seg) ∧
        st' = { st.setSlot id .tombstone with free := st.free ++ [id] } := by
  unfold segUnmap
  split
  · next h => exact ⟨nofun, fun e => absurd h e.1⟩
  · next h =>
    cases st.segment id with
    | none => exact ⟨nofun, fun ⟨_, ⟨_, e⟩, _⟩ => nomatch e⟩
    | some seg =>
      exact ⟨fun e => ⟨h, ⟨seg, rfl⟩, (Except.ok.inj e).symm⟩, fun ⟨_, _, e⟩ => by rw [e]⟩

theorem segUnmap_eq_error {st : Store} {id : Word} {c : Cause} :
    segUnmap st id = .error c ↔
      (id = 0 ∧ c = .unmapSegmentZero) ∨ (id ≠ 0 ∧ st.segment id = none ∧ c = .inactiveSegment id) := by
  unfold segUnmap
  split
  · next h =>
    refine ⟨fun e => .inl ⟨h, (Except.error.inj e).symm⟩, ?_⟩
    rintro (⟨_, rfl⟩ | ⟨hn, _⟩)
    · rfl
    · exact absurd h hn
  · next h =>
    cases st.segment id with
    | none =>
      refine ⟨fun e => .inr ⟨h, rfl, (Except.error.inj e).symm⟩, ?_⟩
      rintro (⟨h0, _⟩ | ⟨_, _, rfl⟩)
      · exact absurd h0 h
      · rfl
    | some seg =>
      refine ⟨nofun, ?_⟩
      rintro (⟨h0, _⟩ | ⟨_, e, _⟩)
      · exact absurd h0 h
      · cases e

/-- All that replacing segment 0 can answer (20_memory.md R42, R53). -/
theorem segReplaceZero_eq_ok {pool : Option Nat} {st st' : Store} {src : Word} :
    segReplaceZero pool st src = .ok st' ↔
      ∃ seg, st.segment src = some seg ∧
        ((src = 0 ∧ st' = st) ∨
         (src ≠ 0 ∧ fitsPool pool (st.wordsInUse + seg.len.toNat) = true ∧
            st' = st.setSlot 0 (.active seg))) := by
  unfold segReplaceZero
  cases st.segment src with
  | none => exact ⟨nofun, fun ⟨_, e, _⟩ => nomatch e⟩
  | some seg =>
    simp only [Option.some.injEq, exists_eq_left']
    split
    · next h =>
      refine ⟨fun e => .inl ⟨h, (Except.ok.inj e).symm⟩, ?_⟩
      rintro (⟨_, rfl⟩ | ⟨hn, _⟩)
      · rfl
      · exact absurd h hn
    · next h =>
      split
      · next hf =>
        refine ⟨fun e => .inr ⟨h, hf, (Except.ok.inj e).symm⟩, ?_⟩
        rintro (⟨h0, _⟩ | ⟨_, _, rfl⟩)
        · exact absurd h0 h
        · rfl
      · next hf =>
        refine ⟨nofun, ?_⟩
        rintro (⟨h0, _⟩ | ⟨_, hp, _⟩)
        · exact absurd h0 h
        · exact absurd hp hf

theorem segReplaceZero_eq_error {pool : Option Nat} {st : Store} {src : Word} {c : Cause} :
    segReplaceZero pool st src = .error c ↔
      (st.segment src = none ∧ c = .inactiveSegment src) ∨
      (∃ seg, st.segment src = some seg ∧ src ≠ 0 ∧
        fitsPool pool (st.wordsInUse + seg.len.toNat) = false ∧ c = .resourceExhausted) := by
  unfold segReplaceZero
  cases st.segment src with
  | none => simp [eq_comm (a := c)]
  | some seg =>
    simp only [reduceCtorEq, false_and, Option.some.injEq, false_or, exists_eq_left']
    split
    · next h => exact ⟨nofun, fun e => absurd h e.1⟩
    · next h =>
      split
      · next hf => exact ⟨nofun, fun e => by rw [hf] at e; exact nomatch e.2.1⟩
      · next hf =>
        exact ⟨fun e => ⟨h, by simpa using hf, (Except.error.inj e).symm⟩, fun e => by rw [e.2.2]⟩

/-! ## Every memory operation keeps the canonical form -/

theorem memWrite_wf {st st' : Store} (h : st.wf = true) {id off v : Word}
    (hw : memWrite st id off v = .ok st') : st'.wf = true := by
  obtain ⟨seg, hs, hl, rfl⟩ := memWrite_eq_ok.1 hw
  exact Store.setSlot_wf h id (Segment.write_wf (Store.segment_wf h hs) hl v)

theorem newId_table {st st' : Store} {id : Word} (h : newId st = some (id, st')) :
    st'.table = st.table := by
  rcases newId_eq_some.1 h with ⟨_, _, rfl⟩ | ⟨_, _, _, rfl⟩ <;> rfl

theorem segMap_wf {pool : Option Nat} {st st' : Store} (h : st.wf = true) {n id : Word}
    (hm : segMap pool st n = .ok (id, st')) : st'.wf = true := by
  obtain ⟨st1, h1, _, rfl⟩ := segMap_eq_ok.1 hm
  exact Store.setSlot_wf (Store.wf_congr (newId_table h1) ▸ h) id (Segment.zeros_wf n)

theorem segUnmap_wf {st st' : Store} (h : st.wf = true) {id : Word}
    (hu : segUnmap st id = .ok st') : st'.wf = true := by
  obtain ⟨_, _, rfl⟩ := segUnmap_eq_ok.1 hu
  exact (Store.wf_congr rfl).trans (Store.setSlot_wf h id (x := .tombstone) rfl)

theorem segReplaceZero_wf {pool : Option Nat} {st st' : Store} (h : st.wf = true) {src : Word}
    (hr : segReplaceZero pool st src = .ok st') : st'.wf = true := by
  obtain ⟨seg, hs, ⟨_, rfl⟩ | ⟨_, _, rfl⟩⟩ := segReplaceZero_eq_ok.1 hr
  · exact h
  · exact Store.setSlot_wf h 0 (Store.segment_wf h hs)

/-- The reset store has the canonical form. -/
theorem Store.initial_wf : Store.initial.wf = true := by decide

end Sys2Proof.Machine
end

