-- ==== Sys2Proof/Laws/Boundary.lean ====
section
/-!
SUPPORT. What the program-load interface can answer, said once.
-/

namespace Sys2Proof.Machine

/-- All that the load interface can answer (10_state.md R24). -/
theorem loadImage_eq_some {s t : State} {image : List Word} :
    s.loadImage image = some t ↔
      s.loadOpen = true ∧ imageFits s.poolWords image.length = true ∧
        t = (s.setStore (s.store.setSlot 0 (.active (Segment.ofWords image)))).closeLoad := by
  unfold State.loadImage
  split
  · next h =>
    rw [Bool.and_eq_true] at h
    simp [h, eq_comm (a := t)]
  · next h =>
    rw [Bool.and_eq_true] at h
    simp only [reduceCtorEq, false_iff, not_and]
    exact fun ho hf => absurd ⟨ho, hf⟩ h

/-- When the load interface takes nothing: it is closed, or the image does not fit. -/
theorem loadImage_eq_none {s : State} {image : List Word} :
    s.loadImage image = none ↔
      s.loadOpen = false ∨ imageFits s.poolWords image.length = false := by
  cases ho : s.loadOpen <;> cases hf : imageFits s.poolWords image.length <;>
    simp [State.loadImage, ho, hf]

end Sys2Proof.Machine
end

