-- ==== Sys2Proof/Laws/Decode.lean ====
section
/-!
SUPPORT. The values of the codec, the decoder's fields and the encoder as numbers.
-/

namespace Sys2Proof

/-- The field a codec read gives, as a number (30_encoding.md R70). -/
theorem extractUnsigned_toNat (w : Word) (k o : Nat) (h : k + o ≤ 32) :
    (extractUnsigned w k o h).toNat = w.toNat / 2 ^ o % 2 ^ k := by
  have hk : 2 ^ k ≤ 2 ^ 32 := Nat.pow_le_pow_right (by decide) (by omega)
  have := Nat.mod_lt (w.toNat / 2 ^ o) (Nat.two_pow_pos k)
  simp only [extractUnsigned, BitVec.toNat_ofNat]
  exact Nat.mod_eq_of_lt (by omega)

/-- The number of a register field (R62, R63). -/
theorem regField_val (w : Word) (o : Nat) (h : 3 + o ≤ 32) :
    (regField w o h).val = w.toNat / 2 ^ o % 8 := by
  simp [regField, extractUnsigned_toNat]

/-- The number of a format-R instruction word (R74). -/
theorem encodeR_toNat {op : Nat} (hop : op < 16) (a b c : Reg) :
    (encodeR op a b c).toNat = op * 2 ^ 28 + a.val * 64 + b.val * 8 + c.val := by
  simp only [encodeR, BitVec.toNat_ofNat]
  omega

/-- The number of a format-I instruction word (R74). -/
theorem encodeI_toNat (a : Reg) {imm : Word} (h : imm.toNat < immLimit) :
    (encodeI a imm).toNat = 13 * 2 ^ 28 + a.val * 2 ^ 25 + imm.toNat := by
  simp only [encodeI, BitVec.toNat_ofNat, immLimit] at *
  omega

end Sys2Proof
end

