-- ==== Sys2Proof/Laws/Step.lean ====
section
/-!
SUPPORT. What fetch and each meaning can answer, said once.
-/

namespace Sys2Proof.Machine

/-- A step of a running engine whose fetch and decode succeed is the instruction's (40_engine.md R80). -/
theorem step_of_fetchInstr {s : State} (hs : s.status = .running) {i : Instr}
    (hf : fetchInstr s = .ok i) : step s = exec i s.closeLoad.advance := by
  simp [step, hs, hf]

/-- A step of a running engine whose fetch or decode raises is fault entry (R82, R83). -/
theorem step_of_fetchInstr_error {s : State} (hs : s.status = .running) {c : Cause}
    (hf : fetchInstr s = .error c) : step s = .next (raise c s.closeLoad) := by
  simp [step, hs, hf]

/-- Fetch and decode give an instruction exactly if both succeed. -/
theorem fetchInstr_eq_ok {s : State} {i : Instr} :
    fetchInstr s = .ok i ↔ ∃ w, fetchWord s = .ok w ∧ decode w = .ok i := by
  unfold fetchInstr
  cases fetchWord s with
  | error c => simp
  | ok w =>
    simp only [Except.ok.injEq, exists_eq_left']
    cases decode w with
    | ok j => simp
    | error e => cases e; simp

/-- What fetch and decode can raise (R82, R83). -/
theorem fetchInstr_eq_error {s : State} {c : Cause} :
    fetchInstr s = .error c ↔
      fetchWord s = .error c ∨
      ∃ w v, fetchWord s = .ok w ∧ decode w = .error (.invalidOpcode v) ∧ c = .invalidOpcode v := by
  unfold fetchInstr
  cases fetchWord s with
  | error d => simp
  | ok w =>
    simp only [Except.ok.injEq, reduceCtorEq, false_or, exists_and_left, exists_eq_left']
    cases decode w with
    | ok j => simp
    | error e => cases e; simp [eq_comm]

theorem nonzero_iff {v : Word} : nonzero v = true ↔ v ≠ 0 := decide_eq_true_iff

theorem fitsByte_iff {v : Word} : fitsByte v = true ↔ v.toNat ≤ 255 := decide_eq_true_iff

section Meanings
variable {a b c : Reg} {s t : State}

theorem execCmov_eq_next :
    execCmov a b c s = .next t ↔
      (s.readReg c ≠ 0 ∧ t = s.writeReg a (s.readReg b)) ∨ (s.readReg c = 0 ∧ t = s) := by
  rw [execCmov, Host.Outcome.next.injEq]
  split
  · next h =>
    rw [nonzero_iff] at h
    exact ⟨fun e => .inl ⟨h, e.symm⟩, fun e => by
      rcases e with ⟨_, e⟩ | ⟨h0, _⟩
      · exact e.symm
      · exact absurd h0 h⟩
  · next h =>
    rw [nonzero_iff, not_not] at h
    exact ⟨fun e => .inr ⟨h, e.symm⟩, fun e => by
      rcases e with ⟨h0, _⟩ | ⟨_, e⟩
      · exact absurd h h0
      · exact e.symm⟩

theorem execOut_eq_next :
    execOut c s = .next t ↔
      ((s.readReg c).toNat ≤ 255 ∧ t = s.emit (lowByte (s.readReg c))) ∨
      (255 < (s.readReg c).toNat ∧ t = s) := by
  rw [execOut, Host.Outcome.next.injEq]
  split
  · next h => rw [fitsByte_iff] at h; simp [h, Nat.not_lt.2 h, eq_comm (a := t)]
  · next h => rw [fitsByte_iff] at h; simp [h, Nat.not_le.1 h, eq_comm (a := t)]

theorem execDiv_eq_next :
    execDiv a b c s = .next t ↔
      (s.readReg c ≠ 0 ∧
        t = s.writeReg a (BitVec.ofNat 32 ((s.readReg b).toNat / (s.readReg c).toNat))) ∨
      (s.readReg c = 0 ∧ t = raise .divideByZero s) := by
  unfold execDiv aluDiv
  split
  · next h => simp [orRaise, eq_comm (a := t), show s.readReg c = 0#32 from h]
  · next h => simp [orRaise, eq_comm (a := t), show ¬s.readReg c = 0#32 from h]

theorem execSload_eq_next :
    execSload a b c s = .next t ↔
      (∃ v, memRead s.store (s.readReg b) (s.readReg c) = .ok v ∧ t = s.writeReg a v) ∨
      (∃ d, memRead s.store (s.readReg b) (s.readReg c) = .error d ∧ t = raise d s) :=
  orRaise_eq_next

theorem execSstore_eq_next :
    execSstore a b c s = .next t ↔
      (∃ st, memWrite s.store (s.readReg a) (s.readReg b) (s.readReg c) = .ok st ∧ t = s.setStore st) ∨
      (∃ d, memWrite s.store (s.readReg a) (s.readReg b) (s.readReg c) = .error d ∧ t = raise d s) :=
  orRaise_eq_next

theorem execMap_eq_next :
    execMap b c s = .next t ↔
      (∃ id st, segMap s.poolWords s.store (s.readReg c) = .ok (id, st) ∧
        t = (s.setStore st).writeReg b id) ∨
      (∃ d, segMap s.poolWords s.store (s.readReg c) = .error d ∧ t = raise d s) := by
  rw [execMap, orRaise_eq_next, Prod.exists]

theorem execUnmap_eq_next :
    execUnmap c s = .next t ↔
      (∃ st, segUnmap s.store (s.readReg c) = .ok st ∧ t = s.setStore st) ∨
      (∃ d, segUnmap s.store (s.readReg c) = .error d ∧ t = raise d s) :=
  orRaise_eq_next

theorem execLoadp_eq_next :
    execLoadp b c s = .next t ↔
      (∃ st, segReplaceZero s.poolWords s.store (s.readReg b) = .ok st ∧
        t = (s.setStore st).setPc (s.readReg c)) ∨
      (∃ d, segReplaceZero s.poolWords s.store (s.readReg b) = .error d ∧ t = raise d s) :=
  orRaise_eq_next

theorem execIn_eq_next :
    execIn c s = .next t ↔
      (∃ x rest, s.input = x :: rest ∧ t = (s.setInput rest).writeReg c (answerWord x)) ∨
      (s.input = [] ∧ t = s.retry) := by
  unfold execIn State.takeAnswer
  cases s.input <;> simp [eq_comm (a := t)]

end Meanings

end Sys2Proof.Machine
end

