-- ==== Sys2Proof/Laws/Exec.lean ====
section
/-!
SUPPORT. One inversion lemma for all instructions and one for the step: what each instruction leaves
when it completes, and when it raises. Statements about every step are derived from these two.
-/

namespace Sys2Proof.Machine

/-- What an instruction leaves when it completes on `s`. -/
def Completes (s t : State) : Instr → Prop
  | .cmov a b c => (s.readReg c ≠ 0 ∧ t = s.writeReg a (s.readReg b)) ∨ (s.readReg c = 0 ∧ t = s)
  | .sload a b c => ∃ v, memRead s.store (s.readReg b) (s.readReg c) = .ok v ∧ t = s.writeReg a v
  | .sstore a b c =>
    ∃ st, memWrite s.store (s.readReg a) (s.readReg b) (s.readReg c) = .ok st ∧ t = s.setStore st
  | .add a b c => t = s.writeReg a (aluAdd (s.readReg b) (s.readReg c))
  | .mul a b c => t = s.writeReg a (aluMul (s.readReg b) (s.readReg c))
  | .div a b c =>
    s.readReg c ≠ 0 ∧
      t = s.writeReg a (BitVec.ofNat 32 ((s.readReg b).toNat / (s.readReg c).toNat))
  | .nand a b c => t = s.writeReg a (aluNand (s.readReg b) (s.readReg c))
  | .halt => t = s.halt
  | .map b c =>
    ∃ id st, segMap s.poolWords s.store (s.readReg c) = .ok (id, st) ∧
      t = (s.setStore st).writeReg b id
  | .unmap c => ∃ st, segUnmap s.store (s.readReg c) = .ok st ∧ t = s.setStore st
  | .out c =>
    ((s.readReg c).toNat ≤ 255 ∧ t = s.emit (lowByte (s.readReg c))) ∨
      (255 < (s.readReg c).toNat ∧ t = s)
  | .inp c =>
    (∃ x rest, s.input = x :: rest ∧ t = (s.setInput rest).writeReg c (answerWord x)) ∨
      (s.input = [] ∧ t = s.retry)
  | .loadp b c =>
    ∃ st, segReplaceZero s.poolWords s.store (s.readReg b) = .ok st ∧
      t = (s.setStore st).setPc (s.readReg c)
  | .loadv a imm => t = s.writeReg a (zextImm imm)

/-- When an instruction raises cause `d` on `s`. -/
def Raises (s : State) (d : Cause) : Instr → Prop
  | .cmov _ _ _ => False
  | .sload _ b c => memRead s.store (s.readReg b) (s.readReg c) = .error d
  | .sstore a b c => memWrite s.store (s.readReg a) (s.readReg b) (s.readReg c) = .error d
  | .add _ _ _ => False
  | .mul _ _ _ => False
  | .div _ _ c => s.readReg c = 0 ∧ d = .divideByZero
  | .nand _ _ _ => False
  | .halt => False
  | .map _ c => segMap s.poolWords s.store (s.readReg c) = .error d
  | .unmap c => segUnmap s.store (s.readReg c) = .error d
  | .out _ => False
  | .inp _ => False
  | .loadp b _ => segReplaceZero s.poolWords s.store (s.readReg b) = .error d
  | .loadv _ _ => False

theorem next_eq_next {s t : State} : (Host.Outcome.next s : Result) = .next t ↔ t = s := by
  rw [Host.Outcome.next.injEq, eq_comm]

/-- All that an instruction can answer: it completes, or it raises. -/
theorem exec_eq_next {i : Instr} {s t : State} :
    exec i s = .next t ↔ Completes s t i ∨ ∃ d, Raises s d i ∧ t = raise d s := by
  cases i with
  | cmov a b c => simp only [Raises, false_and, exists_false, or_false]; exact execCmov_eq_next
  | sload a b c => exact execSload_eq_next
  | sstore a b c => exact execSstore_eq_next
  | add a b c => simp only [Raises, false_and, exists_false, or_false]; exact next_eq_next
  | mul a b c => simp only [Raises, false_and, exists_false, or_false]; exact next_eq_next
  | div a b c =>
    refine execDiv_eq_next.trans (or_congr Iff.rfl ?_)
    simp [Raises, and_assoc, and_left_comm]
  | nand a b c => simp only [Raises, false_and, exists_false, or_false]; exact next_eq_next
  | halt => simp only [Raises, false_and, exists_false, or_false]; exact next_eq_next
  | map b c => exact execMap_eq_next
  | unmap c => exact execUnmap_eq_next
  | out c => simp only [Raises, false_and, exists_false, or_false]; exact execOut_eq_next
  | inp c => simp only [Raises, false_and, exists_false, or_false]; exact execIn_eq_next
  | loadp b c => exact execLoadp_eq_next
  | loadv a imm => simp only [Raises, false_and, exists_false, or_false]; exact next_eq_next

/-- All that a step can answer (40_engine.md R80, R88). -/
theorem step_eq_next {s t : State} (h : step s = .next t) :
    (s.status ≠ .running ∧ t = s) ∨
    (s.status = .running ∧ ∃ i, fetchInstr s = .ok i ∧ Completes s.closeLoad.advance t i) ∨
    (s.status = .running ∧ ∃ i d, fetchInstr s = .ok i ∧ Raises s.closeLoad.advance d i ∧
      t = raise d s.closeLoad.advance) ∨
    (s.status = .running ∧ ∃ d, fetchInstr s = .error d ∧ t = raise d s.closeLoad) := by
  by_cases hs : s.status = .running
  · cases hf : fetchInstr s with
    | ok i =>
      rw [step_of_fetchInstr hs hf] at h
      rcases exec_eq_next.1 h with h | ⟨d, hd, rfl⟩
      · exact .inr (.inl ⟨hs, i, rfl, h⟩)
      · exact .inr (.inr (.inl ⟨hs, i, d, rfl, hd, rfl⟩))
    | error c =>
      rw [step_of_fetchInstr_error hs hf] at h
      cases h
      exact .inr (.inr (.inr ⟨hs, c, rfl, rfl⟩))
  · refine .inl ⟨hs, ?_⟩
    unfold step at h
    cases hst : s.status with
    | running => exact absurd hst hs
    | halted => rw [hst] at h; cases h; rfl
    | faulted => rw [hst] at h; cases h; rfl

end Sys2Proof.Machine
end

