-- ==== Sys2Proof/Laws/PerInstr.lean ====
section
/-!
SUPPORT. Statements made once for each instruction: the opcode field of an instruction's encoding
(30_encoding.md R61, R66).
-/

namespace Sys2Proof.Laws.EncodedOpcode

/-- Bits 31..28 of a well-formed instruction's word are its opcode. -/
def Statement (i : Instr) : Prop := i.wellFormed = true → (encode i).toNat / 2 ^ 28 = i.opcode

theorem encodeR_opcode {op : Nat} (hop : op < 16) (a b c : Reg) :
    (encodeR op a b c).toNat / 2 ^ 28 = op := by
  rw [encodeR_toNat hop]
  omega

theorem cmov (a b c : Reg) : Statement (.cmov a b c) := fun _ => encodeR_opcode (by decide) a b c
theorem sload (a b c : Reg) : Statement (.sload a b c) := fun _ => encodeR_opcode (by decide) a b c
theorem sstore (a b c : Reg) : Statement (.sstore a b c) := fun _ => encodeR_opcode (by decide) a b c
theorem add (a b c : Reg) : Statement (.add a b c) := fun _ => encodeR_opcode (by decide) a b c
theorem mul (a b c : Reg) : Statement (.mul a b c) := fun _ => encodeR_opcode (by decide) a b c
theorem div (a b c : Reg) : Statement (.div a b c) := fun _ => encodeR_opcode (by decide) a b c
theorem nand (a b c : Reg) : Statement (.nand a b c) := fun _ => encodeR_opcode (by decide) a b c
theorem halt : Statement .halt := fun _ => encodeR_opcode (by decide) 0 0 0
theorem map (b c : Reg) : Statement (.map b c) := fun _ => encodeR_opcode (by decide) 0 b c
theorem unmap (c : Reg) : Statement (.unmap c) := fun _ => encodeR_opcode (by decide) 0 0 c
theorem out (c : Reg) : Statement (.out c) := fun _ => encodeR_opcode (by decide) 0 0 c
theorem inp (c : Reg) : Statement (.inp c) := fun _ => encodeR_opcode (by decide) 0 0 c
theorem loadp (b c : Reg) : Statement (.loadp b c) := fun _ => encodeR_opcode (by decide) 0 b c

theorem loadv (a : Reg) (imm : Word) : Statement (.loadv a imm) := fun h => by
  have h : imm.toNat < immLimit := by simpa [Instr.wellFormed] using h
  rw [encode, encodeI_toNat a h]
  simp only [immLimit, Instr.opcode] at *
  omega

end Sys2Proof.Laws.EncodedOpcode
end

