-- ==== Sys2Proof/Tests/Slice0.lean ====
section
/-!
SUPPORT. Tests, and a witness for every obligation that has hypotheses. Expected values are those of
spec/95_test_vectors.md or written by hand from the encoding of 30_encoding.md. Each test runs at
most a single step.
-/

open Sys2Proof Sys2Proof.Machine

namespace Sys2Proof.Tests

/-! ## Well-formedness -/

theorem test_wellFormed_refuses_wide_immediate : (Instr.loadv 3 0x2000000).wellFormed = false := by decide

theorem test_wellFormed_takes_widest_immediate : (Instr.loadv 3 0x1FFFFFF).wellFormed = true := by decide

theorem test_wellFormed_takes_register_forms : (Instr.cmov 7 7 7).wellFormed = true := by decide

/-! ## Decoding: words written bit by bit, fields opcode, unused, A, B, C -/

theorem test_decode_cmov : decode 0b0000_0000000000000000000_001_010_011 = .ok (.cmov 1 2 3) := by decide

theorem test_decode_sload : decode 0b0001_0000000000000000000_100_001_010 = .ok (.sload 4 1 2) := by decide

theorem test_decode_sstore : decode 0b0010_0000000000000000000_001_010_011 = .ok (.sstore 1 2 3) := by decide

theorem test_decode_add : decode 0b0011_1111111111111111111_000_001_010 = .ok (.add 0 1 2) := by decide

theorem test_decode_mul : decode 0b0100_0000000000000000001_111_000_101 = .ok (.mul 7 0 5) := by decide

theorem test_decode_div : decode 0b0101_0000000000000000000_011_010_001 = .ok (.div 3 2 1) := by decide

theorem test_decode_nand : decode 0b0110_0000000000000000000_011_000_000 = .ok (.nand 3 0 0) := by decide

theorem test_decode_halt : decode 0b0111_1111111111111111111_111_111_111 = .ok .halt := by decide

theorem test_decode_map : decode 0b1000_0000000000000000000_111_010_011 = .ok (.map 2 3) := by decide

theorem test_decode_unmap : decode 0b1001_0000000000000000000_111_111_001 = .ok (.unmap 1) := by decide

theorem test_decode_out : decode 0b1010_0000000000000000000_011_111_110 = .ok (.out 6) := by decide

theorem test_decode_inp : decode 0b1011_0000000000000000000_000_000_011 = .ok (.inp 3) := by decide

theorem test_decode_loadp : decode 0b1100_0000000000000000000_000_001_010 = .ok (.loadp 1 2) := by decide

theorem test_decode_loadv : decode 0b1101_111_0101011011011111011101111 = .ok (.loadv 7 0xADBEEF) := by decide

theorem test_decode_fourteen : decode 0xE0000000 = .error (.invalidOpcode 0xE0000000) := by decide

theorem test_decode_fifteen : decode 0xFFFFFFFF = .error (.invalidOpcode 0xFFFFFFFF) := by decide

theorem test_decodeTableWord_out : decodeTableWord 32 0xA00000FE = some (.out 6) := by decide

theorem test_encode_sload : encode (.sload 4 1 2) = 0x1000010A := by decide

theorem test_encode_loadv : encode (.loadv 5 0xBEEF) = 0xDA00BEEF := by decide

theorem test_insertUnsigned_drops_high_bits : insertUnsigned 0x12345678 8 8 0x1FF = 0x1234FF78 := by decide

theorem test_image_words : wordsOfBytes [0xD0, 0, 0, 0x48, 0xA0, 0, 0, 0, 0xFF, 0xFF] = [0xD0000048, 0xA0000000] := by
  decide

/-! ## States of the tests -/

/-- A booted machine with one instruction word and the registers x2, x3 given. -/
def one (w x2 x3 : Word) : State :=
  (((State.reset.withFetchWord 32 w.toNat).writeReg 1 5).writeReg 2 x2).writeReg 3 x3

/-- Registers of the machine `shop`. -/
def shopRegs : Vector Word 8 := #v[0, 1, 2, 3, 4, 0xBEEF, 255, 256]

/-- The segment 2 of `shop`: four words, the last of them 5. -/
def shopSegment : Segment := ⟨4, [(3, 5)]⟩

/-- Segment 0 is the word `w`, identifier 1 is a tombstone, segment 2 has four words. -/
def shopStore (w : Word) : Store where
  table := [(0, .active ⟨1, [(0, w)]⟩), (1, .tombstone), (2, .active shopSegment)]
  free := [1]
  nextId := 3

/-- A machine in mid-run whose next instruction is `w`. Five words are in use. -/
def shop (w : Word) (pool : Option Nat) (answers : List Answer) : State where
  regs := shopRegs
  pc := 0
  status := .running
  faultCause := none
  store := shopStore w
  output := [0x21]
  loadOpen := false
  input := answers
  poolWords := pool
  freeDraws := 0

/-- What a step leaves. -/
def after (s : State) : State :=
  match step s with
  | .next t => t
  | .fault _ => s
  | .refused _ => s

/-- What an instruction leaves. -/
def done (i : Instr) (s : State) : State :=
  match exec i s with
  | .next t => t
  | .fault _ => s
  | .refused _ => s

/-- An instruction word that is not the word 0 leaves `shop` in canonical form. -/
theorem shop_sound {w : Word} (hw : w ≠ 0) (pool : Option Nat) (answers : List Answer) :
    (shop w pool answers).Sound := by
  have hslot : ∀ id : Word, (shopStore w).slot id =
      if id.toNat = 0 then some (.active ⟨1, [(0, w)]⟩) else if id.toNat = 1 then some .tombstone
      else if id.toNat = 2 then some (.active shopSegment) else none := by
    intro id
    simp only [Store.slot, shopStore, Assoc.find, eq_comm]
  have h1 : ∀ id : Word, id = 1 ↔ id.toNat = 1 := fun id => BitVec.toNat_inj.symm
  refine ⟨?_, by simp [shop], fun _ => ⟨⟨_, hslot 0⟩, fun id => ?_,
    (by decide : [(1 : Word)].Nodup), fun id => ?_, (by decide : 1 ≤ 3 ∧ 3 ≤ Config.idLimit)⟩,
    fun h => absurd h Bool.false_ne_true⟩
  · simp [shop, shopStore, Store.wf, Segment.wf, Slot.wf, shopSegment, Config.idLimit, show ¬w = 0#32 from hw]
  · change id ∈ [1] ↔ _
    rw [List.mem_singleton, h1, show (shop w pool answers).store = shopStore w from rfl, hslot]
    split
    · simp [*]
    · split
      · simp [*]
      · split <;> simp [*]
  · rw [show (shop w pool answers).store = shopStore w from rfl, hslot]
    change _ ↔ id.toNat < 3
    split
    · simp [*]
    · split
      · simp [*]
      · split
        · simp [*]
        · simp only [ne_eq, not_true_eq_false, false_iff]
          omega

/-! ## One step of each instruction (vectors of 95_test_vectors.md 2.3 to 2.6) -/

theorem test_cmov_any_bit_counts : (after (one 0x00000053 9 0x80000000)).readReg 1 = 9 := by decide

theorem test_cmov_no_move : (after (one 0x00000053 9 0)).readReg 1 = 5 := by decide

theorem test_add_wraps : (after (one 0x30000053 0xFFFFFFFF 1)).readReg 1 = 0 := by decide

theorem test_add_source_is_destination : (after (one 0x300000DB 0 0xC0000001)).readReg 3 = 0x80000002 := by decide

theorem test_mul_wraps : (after (one 0x40000053 0xDEADBEEF 0xCAFEBABE)).readReg 1 = 0x88CF5B62 := by decide

theorem test_div_unsigned : (after (one 0x50000053 0x80000000 0xFFFFFFFF)).readReg 1 = 0 := by decide

theorem test_div_truncates : (after (one 0x50000053 0xDEADBEEF 0xBEEF)).readReg 1 = 0x00012A90 := by decide

theorem test_nand_mixed : (after (one 0x60000053 0xF0F0F0F0 0xFF00FF00)).readReg 1 = 0x0FFF0FFF := by decide

theorem test_loadv_clears_upper_bits : (after (one 0xD7FFFFFF 0 0xFFFFFFFF)).readReg 3 = 0x01FFFFFF := by decide

theorem test_sload_reads_stored : (after (shop 0x10000153 none [])).readReg 5 = 5 := by decide

theorem test_sload_reads_fresh_zero : (after (shop 0x10000150 none [])).readReg 5 = 0 := by decide

theorem test_sstore_stores : memRead (after (shop 0x20000085 none [])).store 2 0 = .ok 0xBEEF := by decide

theorem test_sstore_zero_keeps_canonical_form :
    (after (shop 0x20000098 none [])).store.segment 2 = some (Segment.zeros 4) := by decide

theorem test_map_recycles : (after (shop 0x8000002C none [])).readReg 5 = 1 := by decide

theorem test_map_zeros : (after (shop 0x8000002C none [])).store.segment 1 = some (Segment.zeros 4) := by decide

theorem test_unmap_appends : (after (shop 0x90000002 none [])).store.free = [1, 2] := by decide

theorem test_loadp_jumps : (after (shop 0xC0000013 none [])).pc = 3 := by decide

theorem test_loadp_copies : (after (shop 0xC0000013 none [])).store.segment 0 = some shopSegment := by decide

theorem test_halt : (after (shop 0x70000000 none [])).status = .halted := by decide

theorem test_out_byte : (after (shop 0xA0000006 none [])).output = [0x21, 0xFF] := by decide

theorem test_out_discards : (after (shop 0xA0000007 none [])).output = [0x21] := by decide

theorem test_in_byte : (after (shop 0xB0000003 none [.byte 0x41])).readReg 3 = 0x41 := by decide

theorem test_in_end_of_stream : (after (shop 0xB0000003 none [.eos])).readReg 3 = 0xFFFFFFFF := by decide

/-! ## Witnesses: states and operands that meet the hypotheses of the obligations -/

theorem witness_DecodeInvertsEncode : (Instr.loadv 7 0x1FFFFFF).wellFormed = true := by decide

theorem witness_EncodeInvertsDecodeOnUsedBits :
    decode 0x3000000A = .ok (.add 0 1 2) ∧
    (0x3FFFFE0A : Word).toNat / 2 ^ 28 = (0x3000000A : Word).toNat / 2 ^ 28 ∧
    (0x3FFFFE0A : Word).toNat % 2 ^ lowBitsUsed (.add 0 1 2) =
      (0x3000000A : Word).toNat % 2 ^ lowBitsUsed (.add 0 1 2) := by decide

theorem witness_OnlyOpcodesFourteenAndFifteenAreInvalid :
    bitsOf 0xDFFFFFFF 31 28 < 14 ∧ (shop 0xE0000000 none []).status = .running ∧
    fetchWord (shop 0xE0000000 none []) = .ok 0xE0000000 ∧ 14 ≤ bitsOf 0xE0000000 31 28 := by decide

theorem witness_EncodedWordsAreTheSpecsSums : (0x1FFFFFF : Word).toNat < 2 ^ 25 := by decide

theorem witness_CodecExtractsAndInsertsFields :
    8 + 24 ≤ 32 ∧ (23 < 24 ∨ 24 + 8 ≤ 23) ∧ (32 < 24 ∨ 24 + 8 ≤ 32) ∧ 0 + 32 ≤ 32 := by decide

theorem witness_ImageLengthIsWholeWords :
    [(0x70 : Byte), 0, 0, 0].length = 4 * 1 ∧ [(0xFF : Byte), 0xFF, 0xFF].length < 4 ∧
    [(0x70 : Byte), 0, 0, 0].length / 4 ≤ Config.imageMaxWords ∧ [(0x70 : Byte), 0, 0].length < 4 := by
  decide

theorem witness_ImageWordsAreBigEndian :
    1 < [(0x70 : Byte), 0, 0, 0, 0xD0, 0, 0, 0x48, 0xFF].length / 4 := by decide

theorem witness_BootLoadsTheImageIntoSegmentZero :
    imageFits (some 0) ([(0x70 : Byte), 0, 0, 0].length / 4) = false ∧
    imageFits (some 1) ([(0x70 : Byte), 0, 0, 0].length / 4) = true ∧
    (0 : Word).toNat < [(0x70 : Byte), 0, 0, 0].length / 4 ∧ (0xFFFFFFFF : Word) ≠ 0 := by decide

theorem test_load_is_taken_once :
    ((State.reset.loadImage [0xD0000048]).bind fun s => s.loadImage [0x70000000]) = none := by decide

theorem test_load_is_refused_after_a_step : (after State.reset).loadImage [0x70000000] = none := by decide

theorem witness_LoadInterfaceIsUsedOnceBeforeTheFirstStep :
    State.reset.loadOpen = true ∧ imageFits State.reset.poolWords [(0x70000000 : Word)].length = true ∧
    (State.reset.loadImage [0x70000000]).isSome = true ∧ State.reset.status = .running ∧
    (State.boot shopRegs (some 1) [0x70, 0, 0, 0] []).isSome = true := by decide

theorem witness_LoadInterfaceIsUsedOnceBeforeTheFirstStep_run :
    step State.reset = .next (after State.reset) ∧ (shop 0x70000000 none []).loadOpen = false ∧
    Sys2Proof.core.run 1 (shop 0x70000000 none []) = .next (after (shop 0x70000000 none [])) ∧
    (after (shop 0x70000000 none [])).status = .halted := ⟨rfl, rfl, rfl, by decide⟩

theorem witness_LoadInterfaceIsUsedOnceBeforeTheFirstStep_halted :
    (shop 0x70000000 none []).halt.Sound ∧ (shop 0x70000000 none []).halt.status ≠ .running := by
  have h := shop_sound (w := 0x70000000) (by decide) none []
  exact ⟨⟨h.canonical, by simp [shop], fun _ => h.store_sound (by simp [shop]), fun hl => absurd hl Bool.false_ne_true⟩, by decide⟩

theorem witness_StepRunsTheDecodedInstruction :
    (shop 0x3000000A none []).status = .running ∧
    memRead (shop 0x3000000A none []).store 0 (shop 0x3000000A none []).pc = .ok 0x3000000A ∧
    decode 0x3000000A = .ok (.add 0 1 2) := by decide

theorem witness_FetchPastTheEndFaults :
    ((shop 0x70000000 none []).setPc 1).status = .running ∧
    ((shop 0x70000000 none []).setPc 1).store.segment 0 = some ⟨1, [(0, 0x70000000)]⟩ ∧
    (1 : Word).toNat ≤ ((shop 0x70000000 none []).setPc 1).pc.toNat := by decide

theorem witness_TerminalStatesStayAsTheyAre :
    (shop 0x70000000 none []).halt.status ≠ .running ∧
    (raise .divideByZero (shop 0x70000000 none [])).status ≠ .running := by decide

theorem witness_HaltedExactlyByHalt :
    (shop 0x70000000 none []).status = .running ∧
    step (shop 0x70000000 none []) = .next (after (shop 0x70000000 none [])) ∧
    fetchInstr (shop 0x70000000 none []) = .ok .halt := ⟨rfl, rfl, by decide⟩

theorem witness_FaultEntryShowsCauseAndOutput :
    (shop 0x50000050 none []).status = .running ∧
    step (shop 0x50000050 none []) = .next (after (shop 0x50000050 none [])) ∧
    (after (shop 0x50000050 none [])).status = .faulted := ⟨rfl, rfl, by decide⟩

theorem witness_FaultCodesAreTheTables :
    (shop 0x10000108 none []).status = .running ∧
    step (shop 0x10000108 none []) = .next (after (shop 0x10000108 none [])) ∧
    causeCode (after (shop 0x10000108 none [])).hostView.faultCause = 3 := ⟨rfl, rfl, by decide⟩

theorem witness_FaultsAreExactlyTheTables_invalidOpcode :
    (∃ seg, (shop 0xFFFFFFFF none []).store.segment 0 = some seg) ∧
    (after (shop 0xFFFFFFFF none [])).faultCause = some (.invalidOpcode 0xFFFFFFFF) ∧
    faultCondition (shop 0xFFFFFFFF none []) (.invalidOpcode 0xFFFFFFFF) :=
  ⟨⟨_, rfl⟩, rfl, by decide, by decide⟩

theorem witness_FaultsAreExactlyTheTables_divideByZero :
    (after (shop 0x50000050 none [])).faultCause = some .divideByZero ∧
    faultCondition (shop 0x50000050 none []) .divideByZero := ⟨rfl, 1, 2, 0, by decide, by decide⟩

theorem witness_FaultsAreExactlyTheTables_inactiveSegment :
    (after (shop 0x90000001 none [])).faultCause = some (.inactiveSegment 1) ∧
    faultCondition (shop 0x90000001 none []) (.inactiveSegment 1) :=
  ⟨rfl, by decide, .inr (.inr (.inr ⟨1, by decide, by decide, by decide⟩))⟩

theorem witness_FaultsAreExactlyTheTables_offsetOutOfRange :
    (after (shop 0x200000A0 none [])).faultCause = some (.offsetOutOfRange 2 4) ∧
    faultCondition (shop 0x200000A0 none []) (.offsetOutOfRange 2 4) :=
  ⟨rfl, shopSegment, by decide, by decide, .inr (.inr ⟨2, 4, 0, by decide, by decide, by decide⟩)⟩

theorem witness_FaultsAreExactlyTheTables_unmapSegmentZero :
    (after (shop 0x90000000 none [])).faultCause = some .unmapSegmentZero ∧
    faultCondition (shop 0x90000000 none []) .unmapSegmentZero := ⟨rfl, 0, by decide, by decide⟩

theorem witness_FaultsAreExactlyTheTables_resourceExhausted :
    (after (shop 0x8000002C (some 8) [])).faultCause = some .resourceExhausted ∧
    faultCondition (shop 0x8000002C (some 8) []) .resourceExhausted :=
  ⟨rfl, .inl ⟨5, 4, by decide, .inr (by decide)⟩⟩

theorem witness_EightInstructionsNeverFault :
    neverFaults (.inp 3) = true ∧ (shop 0xB0000003 none []).status ≠ .faulted := by decide

theorem witness_ProgramCounterAfterAStep_loadp :
    fetchInstr (shop 0xC0000013 none []) = .ok (.loadp 2 3) ∧
    step (shop 0xC0000013 none []) = .next (after (shop 0xC0000013 none [])) ∧
    (after (shop 0xC0000013 none [])).status ≠ .faulted := ⟨by decide, rfl, by decide⟩

theorem witness_ProgramCounterAfterAStep_in :
    fetchInstr (shop 0xB0000003 none []) = .ok (.inp 3) ∧ (shop 0xB0000003 none []).input = [] ∧
    (after (shop 0xB0000003 none [])).status ≠ .faulted ∧
    (after (shop 0xB0000003 none [.eos])).pc = 1 := by decide

theorem witness_OnlyTheDestinationRegisterChanges :
    (shop 0x10000153 none []).status = .running ∧
    fetchInstr (shop 0x10000153 none []) = .ok (.sload 5 2 3) ∧
    step (shop 0x10000153 none []) = .next (after (shop 0x10000153 none [])) ∧
    (after (shop 0x10000153 none [])).status ≠ .faulted ∧ destination (.sload 5 2 3) ≠ some 4 :=
  ⟨rfl, by decide, rfl, by decide, by decide⟩

theorem witness_OutputGrowsOnlyThroughOut :
    step (shop 0xA0000006 none []) = .next (after (shop 0xA0000006 none [])) ∧
    fetchInstr (shop 0xA0000006 none []) = .ok (.out 6) := ⟨rfl, by decide⟩

theorem witness_InputIsTakenOnlyByIn :
    step (shop 0xB0000003 none [.eos, .byte 1]) = .next (after (shop 0xB0000003 none [.eos, .byte 1])) ∧
    (after (shop 0xB0000003 none [.eos, .byte 1])).input = [.byte 1] := ⟨rfl, by decide⟩

theorem witness_PendingAnswersMatterOnlyToIn :
    (shop 0xA0000006 none []).status = .running ∧
    (∀ c, fetchInstr (shop 0xA0000006 none []) ≠ .ok (.inp c)) ∧
    step (shop 0xA0000006 none []) = .next (after (shop 0xA0000006 none [])) ∧
    (after (shop 0xA0000006 none [])).status ≠ .faulted := ⟨rfl, by decide, rfl, by decide⟩

/-- `shop` with an empty free list, so that MAP mints 3. -/
def mint (w : Word) : State :=
  { shop w none [] with store := { shopStore w with free := [] } }

theorem witness_CounterRisesOnlyByMinting :
    (mint 0x8000002C).status = .running ∧ step (mint 0x8000002C) = .next (after (mint 0x8000002C)) ∧
    (after (mint 0x8000002C)).status ≠ .faulted ∧ (after (mint 0x8000002C)).store.nextId = 4 :=
  ⟨rfl, rfl, by decide, by decide⟩

theorem witness_SegmentsChangeOnlyByStoreOrUnmap_sstore :
    (shop 0x20000085 none []).Sound ∧ (shop 0x20000085 none []).status = .running ∧
    step (shop 0x20000085 none []) = .next (after (shop 0x20000085 none [])) ∧
    (after (shop 0x20000085 none [])).status ≠ .faulted ∧
    (shop 0x20000085 none []).store.segment 2 = some shopSegment :=
  ⟨shop_sound (by decide) _ _, rfl, rfl, by decide, by decide⟩

theorem witness_SegmentsChangeOnlyByStoreOrUnmap_unmap :
    (shop 0x90000002 none []).Sound ∧
    step (shop 0x90000002 none []) = .next (after (shop 0x90000002 none [])) ∧
    (after (shop 0x90000002 none [])).store.segment 2 = none :=
  ⟨shop_sound (by decide) _ _, rfl, by decide⟩

theorem witness_LastOffsetIsNeverInRange :
    ((shop 0x70000000 none []).setPc 0xFFFFFFFF).status = .running ∧
    ((shop 0x70000000 none []).setPc 0xFFFFFFFF).pc = 0xFFFFFFFF ∧
    ∃ seg, ((shop 0x70000000 none []).setPc 0xFFFFFFFF).store.segment 0 = some seg := ⟨rfl, rfl, _, rfl⟩

theorem witness_EveryStepKeepsTheMachineSound :
    (shop 0x8000002C none []).Sound ∧
    step (shop 0x8000002C none []) = .next (after (shop 0x8000002C none [])) ∧
    (after (shop 0x8000002C none [])).store.free = [] := ⟨shop_sound (by decide) _ _, rfl, by decide⟩

theorem witness_EveryStepKeepsThePoolBound :
    (shop 0x8000002C (some 9) []).Sound ∧ (shop 0x8000002C (some 9) []).WithinPool ∧
    step (shop 0x8000002C (some 9) []) = .next (after (shop 0x8000002C (some 9) [])) ∧
    (after (shop 0x8000002C (some 9) [])).store.wordsInUse = 9 :=
  ⟨shop_sound (by decide) _ _, fun _ => by decide, rfl, by decide⟩

theorem witness_BootIsSoundAndWithinThePool :
    (State.boot shopRegs (some 1) [0x70, 0, 0, 0, 1] [.eos]).isSome = true := by decide

theorem witness_CmovMovesWhenConditionIsNotZero :
    (shop 0 none []).readReg 1 ≠ 0 ∧ (shop 0 none []).readReg 0 = 0 ∧ bitsOf 0x0FFFFFFF 31 28 = 0 := by decide

theorem witness_AddWritesTheSumModuloWord : bitsOf 0x3FFFFFFF 31 28 = 3 := by decide

theorem witness_MulWritesTheProductModuloWord : bitsOf 0x4FFFFFFF 31 28 = 4 := by decide

theorem witness_DivWritesTheUnsignedQuotient :
    (shop 0 none []).readReg 1 ≠ 0 ∧ bitsOf 0x5FFFFFFF 31 28 = 5 := by decide

theorem witness_DivByZeroFaults : (shop 0 none []).readReg 0 = 0 := by decide

theorem witness_NandWritesTheComplementOfAnd : bitsOf 0x6FFFFFFF 31 28 = 6 ∧ 31 < 32 := by decide

theorem witness_LoadvWritesTheZeroExtendedImmediate : bitsOf 0xDFFFFFFF 31 28 = 13 := by decide

theorem witness_ArithmeticLawsOfTheAlu : (0xFFFFFFFF : Word) ≠ 0 := by decide

theorem witness_SloadWritesTheAddressedWord :
    (shop 1 none []).store.segment ((shop 1 none []).readReg 2) = some shopSegment ∧
    ((shop 1 none []).readReg 3).toNat < shopSegment.len.toNat ∧ bitsOf 0x1FFFFFFF 31 28 = 1 := by decide

theorem witness_SloadFaultsOutsideActiveRange :
    (shop 1 none []).store.segment ((shop 1 none []).readReg 1) = none ∧
    (shop 1 none []).store.segment ((shop 1 none []).readReg 2) = some shopSegment ∧
    shopSegment.len.toNat ≤ ((shop 1 none []).readReg 4).toNat := by decide

theorem witness_SstoreWritesOnlyTheAddressedWord :
    (shop 1 none []).store.segment ((shop 1 none []).readReg 2) = some shopSegment ∧
    ((shop 1 none []).readReg 3).toNat < shopSegment.len.toNat ∧ bitsOf 0x2FFFFFFF 31 28 = 2 := by decide

theorem witness_SstoreFaultsOutsideActiveRange :
    (shop 1 none []).store.segment ((shop 1 none []).readReg 5) = none ∧
    (shop 1 none []).store.segment ((shop 1 none []).readReg 2) = some shopSegment ∧
    shopSegment.len.toNat ≤ ((shop 1 none []).readReg 4).toNat := by decide

theorem witness_StoresToSegmentZeroAreFetched :
    (shop 0x20000001 none []).status = .running ∧
    fetchInstr (shop 0x20000001 none []) = .ok (.sstore 0 0 1) ∧
    (shop 0x20000001 none []).readReg 0 = 0 ∧
    (shop 0x20000001 none []).store.segment 0 = some ⟨1, [(0, 0x20000001)]⟩ ∧
    ((shop 0x20000001 none []).readReg 0).toNat < (1 : Word).toNat := by decide

theorem witness_StoresToSegmentZeroAreFetched_loadp :
    (shop 0xC0000013 none []).status = .running ∧
    fetchInstr (shop 0xC0000013 none []) = .ok (.loadp 2 3) ∧
    step (shop 0xC0000013 none []) = .next (after (shop 0xC0000013 none [])) ∧
    (after (shop 0xC0000013 none [])).status ≠ .faulted := ⟨rfl, by decide, rfl, by decide⟩

theorem witness_StoresToSegmentZeroAreFetched_other :
    (shop 0x20000085 none []).Sound ∧ (shop 0x20000085 none []).status = .running ∧
    step (shop 0x20000085 none []) = .next (after (shop 0x20000085 none [])) ∧
    (after (shop 0x20000085 none [])).status ≠ .faulted ∧
    (∀ b c, fetchInstr (shop 0x20000085 none []) ≠ .ok (.loadp b c)) ∧
    fetchInstr (shop 0x20000085 none []) = .ok (.sstore 2 0 5) ∧
    (shop 0x20000085 none []).readReg 2 ≠ 0 :=
  ⟨shop_sound (by decide) _ _, rfl, rfl, by decide, by decide, by decide, by decide⟩

theorem witness_MapAllocatesAZeroedSegment_recycled :
    (shop 1 (some 9) []).store.free = [1] ∧
    fitsPool (some 9) ((shop 1 (some 9) []).store.wordsInUse + ((shop 1 (some 9) []).readReg 4).toNat) = true ∧
    bitsOf 0x8FFFFFFF 31 28 = 8 := by decide

theorem witness_MapAllocatesAZeroedSegment_minted :
    (mint 1).store.free = [] ∧ (mint 1).store.nextId < 2 ^ 32 ∧
    fitsPool (mint 1).poolWords ((mint 1).store.wordsInUse + ((mint 1).readReg 4).toNat) = true := by decide

theorem witness_MapFaultsWhenExhausted :
    fitsPool (some 8) ((shop 1 (some 8) []).store.wordsInUse + ((shop 1 (some 8) []).readReg 4).toNat) = false ∧
    (((mint 1).setStore { shopStore 1 with free := [], nextId := 2 ^ 32 }).store.free = [] ∧
      2 ^ 32 ≤ ((mint 1).setStore { shopStore 1 with free := [], nextId := 2 ^ 32 }).store.nextId) := by decide

theorem witness_MapReturnsAnInactiveIdentifier :
    (shop 1 none []).Sound ∧ (shop 1 none []).status = .running ∧
    exec (.map 5 4) (shop 1 none []) = .next (done (.map 5 4) (shop 1 none [])) ∧
    (done (.map 5 4) (shop 1 none [])).status ≠ .faulted :=
  ⟨shop_sound (by decide) _ _, rfl, rfl, by decide⟩

theorem witness_UnmapFreesTheSegment :
    (shop 1 none []).readReg 2 ≠ 0 ∧
    (shop 1 none []).store.segment ((shop 1 none []).readReg 2) = some shopSegment ∧
    bitsOf 0x9FFFFFFF 31 28 = 9 := by decide

theorem witness_UnmapFaultsOnZeroAndInactive :
    (shop 1 none []).readReg 0 = 0 ∧ (shop 1 none []).readReg 1 ≠ 0 ∧
    (shop 1 none []).store.segment ((shop 1 none []).readReg 1) = none := by decide

/-- Identifiers 1 and 2 active and nothing freed. -/
def pair : State :=
  (shop 1 none []).setStore
    ⟨[(0, .active ⟨1, [(0, 1)]⟩), (1, .active ⟨1, []⟩), (2, .active shopSegment)], [], 3⟩

theorem witness_FreedIdentifiersAreReusedInOrder :
    pair.store.free = [] ∧
    exec (.unmap 2) pair = .next (done (.unmap 2) pair) ∧
    exec (.unmap 1) (done (.unmap 2) pair) = .next (done (.unmap 1) (done (.unmap 2) pair)) ∧
    exec (.map 6 4) (done (.unmap 1) (done (.unmap 2) pair)) =
      .next (done (.map 6 4) (done (.unmap 1) (done (.unmap 2) pair))) ∧
    exec (.map 7 4) (done (.map 6 4) (done (.unmap 1) (done (.unmap 2) pair))) =
      .next (done (.map 7 4) (done (.map 6 4) (done (.unmap 1) (done (.unmap 2) pair)))) ∧
    (done (.map 7 4) (done (.map 6 4) (done (.unmap 1) (done (.unmap 2) pair)))).status = .running ∧
    (done (.map 6 4) (done (.unmap 1) (done (.unmap 2) pair))).readReg 6 = 2 ∧
    (done (.map 7 4) (done (.map 6 4) (done (.unmap 1) (done (.unmap 2) pair)))).readReg 7 = 1 :=
  ⟨rfl, rfl, rfl, rfl, rfl, by decide, by decide, by decide⟩

theorem witness_HaltStopsAndChangesNothingElse : bitsOf 0x7FFFFFFF 31 28 = 7 := by decide

theorem witness_LoadpCopiesTheSegmentAndJumps :
    (shop 1 (some 9) []).readReg 2 ≠ 0 ∧
    (shop 1 (some 9) []).store.segment ((shop 1 (some 9) []).readReg 2) = some shopSegment ∧
    fitsPool (some 9) ((shop 1 (some 9) []).store.wordsInUse + shopSegment.len.toNat) = true ∧
    bitsOf 0xCFFFFFFF 31 28 = 12 := by decide

theorem witness_LoadpFromZeroIsThePlainJump :
    (shop 1 (some 5) []).readReg 0 = 0 ∧
    (shop 1 (some 5) []).store.segment 0 = some ⟨1, [(0, 1)]⟩ := by decide

theorem witness_LoadpFaultsOnInactiveOrExhausted :
    (shop 1 (some 8) []).store.segment ((shop 1 (some 8) []).readReg 1) = none ∧
    (shop 1 (some 8) []).readReg 2 ≠ 0 ∧
    (shop 1 (some 8) []).store.segment ((shop 1 (some 8) []).readReg 2) = some shopSegment ∧
    fitsPool (some 8) ((shop 1 (some 8) []).store.wordsInUse + shopSegment.len.toNat) = false := by decide

/-- The store of `shop` with segment 0 a copy of segment 2. -/
def copied : Store := (shopStore 1).setSlot 0 (.active shopSegment)

theorem witness_ReplacedSegmentZeroIsADeepCopy :
    segReplaceZero none (shopStore 1) 2 = .ok copied ∧
    memWrite copied 2 3 7 = .ok (copied.setSlot 2 (.active ⟨4, [(3, 7)]⟩)) ∧
    memWrite copied 0 0 7 = .ok (copied.setSlot 0 (.active ⟨4, [(0, 7), (3, 5)]⟩)) ∧
    segUnmap copied 2 = .ok { copied.setSlot 2 .tombstone with free := [1, 2] } := by decide

theorem witness_OutAppendsTheByteOrDiscards :
    ((shop 1 none []).readReg 6).toNat ≤ 255 ∧ 255 < ((shop 1 none []).readReg 7).toNat ∧
    bitsOf 0xAFFFFFFF 31 28 = 10 := by decide

theorem witness_InWritesTheAnswer :
    (shop 1 none [.byte 0xFF, .eos]).input = [.byte 0xFF, .eos] ∧ bitsOf 0xBFFFFFFF 31 28 = 11 := by decide

theorem witness_UnansweredInChangesNothing :
    (shop 0xB0000003 none []).status = .running ∧
    fetchInstr (shop 0xB0000003 none []) = .ok (.inp 3) ∧ (shop 0xB0000003 none []).input = [] ∧
    (shop 0xB0000003 none []).loadOpen = false := by decide

theorem witness_PlacedWordIsFetched : ((shop 1 none []).setPc 0xFFFFFFFE).pc.toNat < 2 ^ 32 - 1 := by decide

end Sys2Proof.Tests
end

section
/-!
SUPPORT. What one completed instruction does to each field of the state, and what that makes of a step.
`Completes` says this instruction by instruction; `Effect` sorts it by what happens to the state, so
that a statement about one field has one case for each way that field can change.
-/

namespace Sys2Proof.Machine

/-! ## The ways an instruction completes -/

/-- What a completed instruction leaves of the state `s` it was applied to. The instructions that only
write their destination register share the case `wrote`. -/
inductive Effect (s : State) : Instr → State → Prop
  | notMoved (a b c : Reg) : Effect s (.cmov a b c) s
  | discarded (c : Reg) : Effect s (.out c) s
  | wrote {i : Instr} {r : Reg} (v : Word) (hd : destination i = some r) (hin : ∀ c, i ≠ .inp c) :
      Effect s i (s.writeReg r v)
  | stored {a b c : Reg} {st : Store}
      (h : memWrite s.store (s.readReg a) (s.readReg b) (s.readReg c) = .ok st) :
      Effect s (.sstore a b c) (s.setStore st)
  | mapped {b c : Reg} {id : Word} {st : Store}
      (h : segMap s.poolWords s.store (s.readReg c) = .ok (id, st)) :
      Effect s (.map b c) ((s.setStore st).writeReg b id)
  | unmapped {c : Reg} {st : Store} (h : segUnmap s.store (s.readReg c) = .ok st) :
      Effect s (.unmap c) (s.setStore st)
  | loaded {b c : Reg} {st : Store}
      (h : segReplaceZero s.poolWords s.store (s.readReg b) = .ok st) :
      Effect s (.loadp b c) ((s.setStore st).setPc (s.readReg c))
  | halted : Effect s .halt s.halt
  | emitted {c : Reg} (h : (s.readReg c).toNat ≤ 255) :
      Effect s (.out c) (s.emit (lowByte (s.readReg c)))
  | answered {c : Reg} {x : Answer} {rest : List Answer} (h : s.input = x :: rest) :
      Effect s (.inp c) ((s.setInput rest).writeReg c (answerWord x))
  | waited {c : Reg} (h : s.input = []) : Effect s (.inp c) s.retry

theorem effect_of_completes {s t : State} {i : Instr} (h : Completes s t i) : Effect s i t := by
  cases i with
  | cmov a b c =>
    obtain ⟨_, rfl⟩ | ⟨_, rfl⟩ := h
    · exact .wrote _ rfl nofun
    · exact .notMoved a b c
  | sload a b c => obtain ⟨v, _, rfl⟩ := h; exact .wrote v rfl nofun
  | sstore a b c => obtain ⟨st, hst, rfl⟩ := h; exact .stored hst
  | add a b c => cases h; exact .wrote _ rfl nofun
  | mul a b c => cases h; exact .wrote _ rfl nofun
  | div a b c => obtain ⟨_, rfl⟩ := h; exact .wrote _ rfl nofun
  | nand a b c => cases h; exact .wrote _ rfl nofun
  | halt => cases h; exact .halted
  | map b c => obtain ⟨id, st, hst, rfl⟩ := h; exact .mapped hst
  | unmap c => obtain ⟨st, hst, rfl⟩ := h; exact .unmapped hst
  | out c =>
    obtain ⟨hc, rfl⟩ | ⟨_, rfl⟩ := h
    · exact .emitted hc
    · exact .discarded c
  | inp c =>
    obtain ⟨x, rest, hx, rfl⟩ | ⟨he, rfl⟩ := h
    · exact .answered hx
    · exact .waited he
  | loadp b c => obtain ⟨st, hst, rfl⟩ := h; exact .loaded hst
  | loadv a imm => cases h; exact .wrote _ rfl nofun

/-! ## What an effect does to each field -/

namespace Effect
variable {s t : State} {i : Instr}

theorem loadOpen_eq (h : Effect s i t) : t.loadOpen = s.loadOpen := by cases h <;> rfl

theorem faultCause_eq (h : Effect s i t) : t.faultCause = s.faultCause := by cases h <;> rfl

/-- HALT alone touches the status (10_state.md R15). -/
theorem status_eq (h : Effect s i t) : t.status = s.status ∨ (i = .halt ∧ t.status = .halted) := by
  cases h with
  | halted => exact .inr ⟨rfl, rfl⟩
  | _ => exact .inl rfl

/-- Only an instruction's destination register changes (R12). -/
theorem readReg_eq (h : Effect s i t) {q : Reg} (hq : destination i ≠ some q) :
    t.readReg q = s.readReg q := by
  cases h with
  | wrote v hd _ => exact s.readReg_writeReg_other _ _ _ fun e => hq (e ▸ hd)
  | mapped _ => exact State.readReg_writeReg_other _ _ _ _ fun e => hq (e ▸ rfl)
  | answered _ => exact State.readReg_writeReg_other _ _ _ _ fun e => hq (e ▸ rfl)
  | _ => rfl

/-- LOADP goes to its target (44_control.md R111). -/
theorem pc_loadp {b c : Reg} (h : Effect s (.loadp b c) t) : t.pc = s.readReg c := by
  cases h with
  | wrote v hd _ => exact nomatch hd
  | loaded _ => rfl

/-- Every instruction but LOADP and a waiting IN leaves the pc where fetch put it (R14). -/
theorem pc_eq (h : Effect s i t) (hl : ∀ b c, i ≠ .loadp b c)
    (hin : ∀ c, i = .inp c → s.input ≠ []) : t.pc = s.pc := by
  cases h with
  | @loaded b c => exact absurd rfl (hl b c)
  | @waited c he => exact absurd he (hin c rfl)
  | _ => rfl

theorem retry_of_no_answer {c : Reg} (h : Effect s (.inp c) t) (he : s.input = []) : t = s.retry := by
  cases h with
  | wrote v hd hin => exact absurd rfl (hin c)
  | answered hx => exact nomatch he.symm.trans hx
  | waited _ => rfl

/-- OUT alone touches the output (R25). -/
theorem output_eq (h : Effect s i t) :
    t.output = s.output ∨ ∃ c, i = .out c ∧ (s.readReg c).toNat ≤ 255 ∧
      t.output = s.output ++ [lowByte (s.readReg c)] := by
  cases h with
  | @emitted c hc => exact .inr ⟨c, rfl, hc, rfl⟩
  | _ => exact .inl rfl

/-- IN alone takes an answer (R26). -/
theorem input_eq (h : Effect s i t) :
    t.input = s.input ∨ ∃ c x, i = .inp c ∧ s.input = x :: t.input := by
  cases h with
  | @answered c x rest hx => exact .inr ⟨c, x, rfl, hx⟩
  | _ => exact .inl rfl

end Effect

/-! ## What a step does -/

/-- A step of a running engine completes an instruction, or enters a fault, whose state is the one
before the step but for the load interface, closed, and the pc. -/
theorem step_running {s t : State} (hs : s.status = .running) (h : step s = .next t) :
    (∃ i, fetchInstr s = .ok i ∧ Effect s.closeLoad.advance i t) ∨
      ∃ d p, t = raise d (s.closeLoad.setPc p) := by
  rcases step_eq_next h with ⟨hn, _⟩ | ⟨_, i, hf, hc⟩ | ⟨_, _, d, _, _, rfl⟩ | ⟨_, d, _, rfl⟩
  · exact absurd hs hn
  · exact .inl ⟨i, hf, effect_of_completes hc⟩
  · exact .inr ⟨d, s.pc + 1, rfl⟩
  · exact .inr ⟨d, s.pc, rfl⟩

/-- A step that does not fault completes the instruction it fetched. -/
theorem step_completes {s t : State} (hs : s.status = .running) (h : step s = .next t)
    (ht : t.status ≠ .faulted) : ∃ i, fetchInstr s = .ok i ∧ Effect s.closeLoad.advance i t := by
  rcases step_running hs h with hi | ⟨d, p, rfl⟩
  · exact hi
  · exact absurd rfl ht

theorem effect_of_step {s t : State} {i : Instr} (hs : s.status = .running) (hf : fetchInstr s = .ok i)
    (h : step s = .next t) (ht : t.status ≠ .faulted) : Effect s.closeLoad.advance i t := by
  obtain ⟨j, hj, he⟩ := step_completes hs h ht
  cases hf.symm.trans hj
  exact he

/-- In a terminal state there is no step (10_state.md R15). -/
theorem step_of_terminal {s : State} (hs : s.status ≠ .running) : step s = .next s := by
  unfold step
  cases hst : s.status with
  | running => exact absurd hst hs
  | halted => rfl
  | faulted => rfl

theorem eq_of_step_of_terminal {s t : State} (hs : s.status ≠ .running) (h : step s = .next t) :
    t = s := next_eq_next.1 ((step_of_terminal hs).symm.trans h)

/-- A step of a running engine closes the load interface (R24). -/
theorem step_closes_load {s t : State} (hs : s.status = .running) (h : step s = .next t) :
    t.loadOpen = false := by
  rcases step_running hs h with ⟨_, _, he⟩ | ⟨_, _, rfl⟩
  · exact he.loadOpen_eq
  · rfl

theorem run_succ_of_step {k : Nat} {s u : State} (hu : step s = .next u) :
    Sys2Proof.core.run (k + 1) s = Sys2Proof.core.run k u := by
  simp only [Host.Core.run, show Sys2Proof.core.step s = .next u from hu]

/-- A run of `k + 1` steps that ends in a state begins with a step to a state. -/
theorem exists_step_of_run_succ {k : Nat} {s t : State} (h : Sys2Proof.core.run (k + 1) s = .next t) :
    ∃ u, step s = .next u ∧ Sys2Proof.core.run k u = .next t := by
  cases hu : step s with
  | next u => exact ⟨u, rfl, (run_succ_of_step hu).symm.trans h⟩
  | fault r => exact nomatch r
  | refused r => simp only [Host.Core.run, show Sys2Proof.core.step s = .refused r from hu, reduceCtorEq] at h

/-- What every step keeps, every run keeps. -/
theorem run_keeps {P : State → Prop} (hP : ∀ s t, P s → step s = .next t → P t) {k : Nat} {s t : State}
    (hs : P s) (h : Sys2Proof.core.run k s = .next t) : P t := by
  induction k generalizing s with
  | zero => exact next_eq_next.1 h ▸ hs
  | succ k ih =>
    obtain ⟨u, hu, hk⟩ := exists_step_of_run_succ h
    exact ih (hP s u hs hu) hk

end Sys2Proof.Machine
end

section
/-!
SUPPORT. The segment store under one step: the free list, the counter and the segments after each
primitive, and the invariants of the segment table (10_state.md R18, R20), which each primitive keeps.
-/

namespace Sys2Proof.Machine

/-! ## Counter and segments after each primitive -/

section Primitives
variable {pool : Option Nat} {st st' : Store} {id off v n src : Word}

theorem memWrite_nextId (h : memWrite st id off v = .ok st') : st'.nextId = st.nextId := by
  obtain ⟨_, _, _, rfl⟩ := memWrite_eq_ok.1 h
  rfl

theorem segUnmap_nextId (h : segUnmap st id = .ok st') : st'.nextId = st.nextId := by
  obtain ⟨_, _, rfl⟩ := segUnmap_eq_ok.1 h
  rfl

theorem segReplaceZero_nextId (h : segReplaceZero pool st src = .ok st') : st'.nextId = st.nextId := by
  obtain ⟨_, _, ⟨_, rfl⟩ | ⟨_, _, rfl⟩⟩ := segReplaceZero_eq_ok.1 h <;> rfl

/-- An allocation that recycles keeps the counter; one that mints returns it and adds one (R40). -/
theorem segMap_nextId (h : segMap pool st n = .ok (id, st')) :
    st'.nextId = st.nextId ∨
      (st.free = [] ∧ st'.nextId = st.nextId + 1 ∧ id = BitVec.ofNat 32 st.nextId) := by
  obtain ⟨_, hid, _, rfl⟩ := segMap_eq_ok.1 h
  rcases newId_eq_some.1 hid with ⟨_, _, rfl⟩ | ⟨hfree, _, rfl, rfl⟩
  · exact .inl rfl
  · exact .inr ⟨hfree, rfl, rfl⟩

theorem memWrite_segment_other (h : memWrite st id off v = .ok st') {j : Word} (hj : j ≠ id) :
    st'.segment j = st.segment j := by
  obtain ⟨_, _, _, rfl⟩ := memWrite_eq_ok.1 h
  exact st.segment_setSlot_other hj _

theorem segMap_segment_other (h : segMap pool st n = .ok (id, st')) {j : Word} (hj : j ≠ id) :
    st'.segment j = st.segment j := by
  obtain ⟨st1, hid, _, rfl⟩ := segMap_eq_ok.1 h
  rw [st1.segment_setSlot_other hj]
  exact Store.segment_congr (by simp [Store.slot, newId_table hid])

theorem segUnmap_segment_other (h : segUnmap st id = .ok st') {j : Word} (hj : j ≠ id) :
    st'.segment j = st.segment j := by
  obtain ⟨_, _, rfl⟩ := segUnmap_eq_ok.1 h
  exact st.segment_setSlot_other hj _

theorem segUnmap_segment_same (h : segUnmap st id = .ok st') : st'.segment id = none := by
  obtain ⟨_, _, rfl⟩ := segUnmap_eq_ok.1 h
  exact st.segment_setSlot_tombstone id

theorem segReplaceZero_segment_other (h : segReplaceZero pool st src = .ok st') {j : Word}
    (hj : j ≠ 0) : st'.segment j = st.segment j := by
  obtain ⟨_, _, ⟨_, rfl⟩ | ⟨_, _, rfl⟩⟩ := segReplaceZero_eq_ok.1 h
  · rfl
  · exact st.segment_setSlot_other hj _

end Primitives

/-! ## The invariants of the segment table -/

theorem Store.slot_setSlot (st : Store) (id j : Word) (x : Slot) :
    (st.setSlot id x).slot j = if j = id then some x else st.slot j := by
  split
  · next h => rw [h, st.slot_setSlot_same]
  · next h => exact st.slot_setSlot_other h x

theorem Store.initial_slot (id : Word) :
    Store.initial.slot id = if id = 0 then some (.active ⟨0, []⟩) else none := by
  have h0 : 0 = id.toNat ↔ id = 0 := eq_comm.trans (BitVec.toNat_inj (y := 0))
  simp only [Store.slot, Store.initial, Assoc.find, h0]

theorem Store.initial_sound : Store.initial.Sound where
  zero_active := ⟨_, by rw [Store.initial_slot, if_pos rfl]⟩
  free_iff_tombstone id := by
    rw [Store.initial_slot]
    split <;> simp [Store.initial]
  free_nodup := List.nodup_nil
  issued_iff id := by
    have h0 : id.toNat < Store.initial.nextId ↔ id = 0 :=
      Nat.lt_one_iff.trans (BitVec.toNat_inj (y := 0))
    rw [Store.initial_slot, h0]
    split
    · next e => simp [e]
    · next e => exact iff_of_false (not_not_intro rfl) e
  nextId_range := by decide

namespace Store.Sound
variable {pool : Option Nat} {st st' : Store} {id off v n src : Word} {seg : Segment}

/-- A segment in place of an active one: identifiers stay active, tombstones or unissued. -/
theorem setSlot_active (h : st.Sound) (hid : st.segment id = some seg) (seg' : Segment) :
    (st.setSlot id (.active seg')).Sound where
  zero_active := by
    rw [st.slot_setSlot]
    split
    · exact ⟨_, rfl⟩
    · exact h.zero_active
  free_iff_tombstone j := by
    rw [st.slot_setSlot, Store.setSlot_free, h.free_iff_tombstone]
    split
    · next e => simp [e, Store.segment_eq_some.1 hid]
    · rfl
  free_nodup := h.free_nodup
  issued_iff j := by
    rw [st.slot_setSlot, Store.setSlot_nextId, ← h.issued_iff]
    split
    · next e => simp [e, Store.segment_eq_some.1 hid]
    · rfl
  nextId_range := h.nextId_range

/-- Identifier 0 is active, so no identifier of the free list is 0. -/
theorem ne_zero_of_mem_free (h : st.Sound) (hid : id ∈ st.free) : id ≠ 0 := by
  rintro rfl
  obtain ⟨seg, hseg⟩ := h.zero_active
  exact nomatch hseg.symm.trans ((h.free_iff_tombstone 0).1 hid)

/-- The identifier the counter stands for has not been issued. -/
theorem slot_nextId (h : st.Sound) (hlt : st.nextId < Config.idLimit) :
    st.slot (BitVec.ofNat 32 st.nextId) = none := by
  by_contra hne
  have := (h.issued_iff _).1 hne
  exact this.ne (Nat.mod_eq_of_lt hlt)

/-- The oldest tombstone becomes active and leaves the free list (20_memory.md R40). -/
theorem recycle (h : st.Sound) {rest : List Word} (hfree : st.free = id :: rest) (seg : Segment) :
    ({ st with free := rest }.setSlot id (.active seg) : Store).Sound := by
  have hmem : id ∈ st.free := hfree ▸ List.mem_cons_self
  have hslot := (h.free_iff_tombstone id).1 hmem
  obtain ⟨hnot, hnodup⟩ := List.nodup_cons.1 (hfree ▸ h.free_nodup)
  refine ⟨?_, fun j => ?_, hnodup, fun j => ?_, h.nextId_range⟩
  · rw [Store.slot_setSlot, if_neg (h.ne_zero_of_mem_free hmem).symm]
    exact h.zero_active
  · rw [Store.slot_setSlot]
    change j ∈ rest ↔ _
    split
    · next e => simp [e, hnot]
    · next e => exact Iff.trans (by simp [hfree, e]) (h.free_iff_tombstone j)
  · rw [Store.slot_setSlot]
    change _ ↔ j.toNat < st.nextId
    rw [← h.issued_iff]
    split
    · next e => simp [e, hslot]
    · rfl

/-- The identifier the counter stands for becomes active and the counter rises (R40). -/
theorem mint (h : st.Sound) (hlt : st.nextId < Config.idLimit) (seg : Segment) :
    ({ st with nextId := st.nextId + 1 }.setSlot (BitVec.ofNat 32 st.nextId) (.active seg) :
      Store).Sound := by
  have hval : (BitVec.ofNat 32 st.nextId).toNat = st.nextId := Nat.mod_eq_of_lt hlt
  have hpos := h.nextId_range.1
  refine ⟨?_, fun j => ?_, h.free_nodup, fun j => ?_, ⟨Nat.le_add_left _ _, hlt⟩⟩
  · have hne : (0 : Word) ≠ BitVec.ofNat 32 st.nextId := fun e => by
      rw [← e] at hval
      exact absurd hval (Nat.ne_of_lt hpos)
    rw [Store.slot_setSlot, if_neg hne]
    exact h.zero_active
  · rw [Store.slot_setSlot]
    refine (h.free_iff_tombstone j).trans ?_
    split
    · next e => simp [e, h.slot_nextId hlt]
    · rfl
  · rw [Store.slot_setSlot]
    change _ ↔ j.toNat < st.nextId + 1
    split
    · next e => simp [e, hval]
    · next e =>
      have hj : j.toNat ≠ st.nextId := fun hj => toNat_ne e (hj.trans hval.symm)
      refine (h.issued_iff j).trans ?_
      omega

/-- An active segment other than 0 becomes a tombstone at the end of the free list (R41). -/
theorem unmap (h : st.Sound) (h0 : id ≠ 0) (hid : st.segment id = some seg) :
    ({ st.setSlot id .tombstone with free := st.free ++ [id] } : Store).Sound := by
  have hslot := Store.segment_eq_some.1 hid
  have hnot : id ∉ st.free := fun hm => nomatch hslot.symm.trans ((h.free_iff_tombstone id).1 hm)
  have hset : ∀ j, ({ st.setSlot id .tombstone with free := st.free ++ [id] } : Store).slot j =
      if j = id then some .tombstone else st.slot j := fun j => st.slot_setSlot id j _
  refine ⟨?_, fun j => ?_, ?_, fun j => ?_, h.nextId_range⟩
  · rw [hset, if_neg h0.symm]
    exact h.zero_active
  · rw [hset, List.mem_append, List.mem_singleton, h.free_iff_tombstone]
    split <;> simp [*]
  · exact List.nodup_append.2 ⟨h.free_nodup, List.nodup_singleton id, by
      rintro a ha b hb rfl
      exact hnot (List.mem_singleton.1 hb ▸ ha)⟩
  · rw [hset]
    refine Iff.trans ?_ (h.issued_iff j)
    split
    · next e => simp [e, hslot]
    · rfl

theorem of_memWrite (h : st.Sound) (hw : memWrite st id off v = .ok st') : st'.Sound := by
  obtain ⟨_, hid, _, rfl⟩ := memWrite_eq_ok.1 hw
  exact h.setSlot_active hid _

theorem of_segMap (h : st.Sound) (hm : segMap pool st n = .ok (id, st')) : st'.Sound := by
  obtain ⟨_, hid, _, rfl⟩ := segMap_eq_ok.1 hm
  rcases newId_eq_some.1 hid with ⟨_, hfree, rfl⟩ | ⟨_, hlt, rfl, rfl⟩
  · exact h.recycle hfree _
  · exact h.mint hlt _

theorem of_segUnmap (h : st.Sound) (hu : segUnmap st id = .ok st') : st'.Sound := by
  obtain ⟨h0, ⟨_, hid⟩, rfl⟩ := segUnmap_eq_ok.1 hu
  exact h.unmap h0 hid

theorem of_segReplaceZero (h : st.Sound) (hr : segReplaceZero pool st src = .ok st') : st'.Sound := by
  obtain ⟨_, _, ⟨_, rfl⟩ | ⟨_, _, rfl⟩⟩ := segReplaceZero_eq_ok.1 hr
  · exact h
  · obtain ⟨_, h0⟩ := h.zero_active
    exact h.setSlot_active (Store.segment_eq_some.2 h0) _

/-- An allocation returns an identifier that was not active (R39). -/
theorem segMap_inactive (h : st.Sound) (hm : segMap pool st n = .ok (id, st')) :
    st.segment id = none := by
  obtain ⟨_, hid, _, _⟩ := segMap_eq_ok.1 hm
  rcases newId_eq_some.1 hid with ⟨_, hfree, _⟩ | ⟨_, hlt, rfl, _⟩
  · simp [Store.segment, (h.free_iff_tombstone id).1 (hfree ▸ List.mem_cons_self)]
  · simp [Store.segment, h.slot_nextId hlt]

end Store.Sound

/-! ## The store after an effect -/

namespace Effect
variable {s t : State} {i : Instr}

/-- A property of the store that the four primitives keep is kept by every effect. -/
theorem store_keeps {P : Store → Prop}
    (hwrite : ∀ {st st' id off v}, P st → memWrite st id off v = .ok st' → P st')
    (hmap : ∀ {pool st st' n id}, P st → segMap pool st n = .ok (id, st') → P st')
    (hunmap : ∀ {st st' id}, P st → segUnmap st id = .ok st' → P st')
    (hreplace : ∀ {pool st st' src}, P st → segReplaceZero pool st src = .ok st' → P st')
    (hs : P s.store) (h : Effect s i t) : P t.store := by
  cases h with
  | stored hst => exact hwrite hs hst
  | mapped hst => exact hmap hs hst
  | unmapped hst => exact hunmap hs hst
  | loaded hst => exact hreplace hs hst
  | _ => exact hs

theorem store_wf (h : Effect s i t) (hs : s.store.wf = true) : t.store.wf = true :=
  h.store_keeps (P := fun st => st.wf = true) (fun h hw => memWrite_wf h hw)
    (fun h hm => segMap_wf h hm) (fun h hu => segUnmap_wf h hu) (fun h hr => segReplaceZero_wf h hr) hs

theorem store_sound (h : Effect s i t) (hs : s.store.Sound) : t.store.Sound :=
  h.store_keeps Store.Sound.of_memWrite Store.Sound.of_segMap Store.Sound.of_segUnmap
    Store.Sound.of_segReplaceZero hs

/-- Only a MAP that mints touches the counter (10_state.md R20). -/
theorem nextId_eq (h : Effect s i t) :
    t.store.nextId = s.store.nextId ∨
      ∃ b c, i = .map b c ∧ s.store.free = [] ∧ t.store.nextId = s.store.nextId + 1 ∧
        t.readReg b = BitVec.ofNat 32 s.store.nextId := by
  cases h with
  | stored hst => exact .inl (memWrite_nextId hst)
  | @mapped b c _ _ hst =>
    refine (segMap_nextId hst).imp_right fun ⟨hfree, hnext, hid⟩ => ?_
    exact ⟨b, c, rfl, hfree, hnext, (State.readReg_writeReg_same _ _ _).trans hid⟩
  | unmapped hst => exact .inl (segUnmap_nextId hst)
  | loaded hst => exact .inl (segReplaceZero_nextId hst)
  | _ => exact .inl rfl

/-- Only UNMAP and SSTORE, each at the identifier its register names, touch an active segment other
than 0 (R17; 20_memory.md R54). -/
theorem segment_eq (h : Effect s i t) (hs : s.store.Sound) {id : Word} (h0 : id ≠ 0) {seg : Segment}
    (hid : s.store.segment id = some seg) :
    t.store.segment id = some seg ∨
      (∃ c, i = .unmap c ∧ s.readReg c = id ∧ t.store.segment id = none) ∨
      (∃ a b c, i = .sstore a b c ∧ s.readReg a = id ∧
        t.store.segment id = some (seg.write (s.readReg b) (s.readReg c))) := by
  cases h with
  | @stored a b c st hst =>
    by_cases ha : id = s.readReg a
    · obtain ⟨g, hg, _, rfl⟩ := memWrite_eq_ok.1 hst
      cases hid.symm.trans (ha ▸ hg)
      exact .inr (.inr ⟨a, b, c, rfl, ha.symm, ha ▸ s.store.segment_setSlot_active _ _⟩)
    · exact .inl ((memWrite_segment_other hst ha).trans hid)
  | mapped hst =>
    refine .inl ((segMap_segment_other hst ?_).trans hid)
    rintro rfl
    exact nomatch hid.symm.trans (hs.segMap_inactive hst)
  | @unmapped c st hst =>
    by_cases hc : id = s.readReg c
    · exact .inr (.inl ⟨c, rfl, hc.symm, hc ▸ segUnmap_segment_same hst⟩)
    · exact .inl ((segUnmap_segment_other hst hc).trans hid)
  | loaded hst => exact .inl ((segReplaceZero_segment_other hst h0).trans hid)
  | _ => exact .inl hid

end Effect

end Sys2Proof.Machine
end

section
/-!
PROOFS. The statements about the state (10_state.md): reset, the program-load interface, the run
status, the program counter, the registers, the channels and the segment store.
-/

namespace Sys2Proof.Machine

/-! ## The invariant of the machine -/

theorem State.resetWith_sound (regs : Vector Word 8) (pool : Option Nat) :
    (State.resetWith regs pool).Sound where
  canonical := Store.initial_wf
  cause_iff := by simp [State.resetWith]
  store_sound _ := Store.initial_sound
  load_window _ := ⟨rfl, rfl, rfl, rfl⟩

/-- Settles O29: `State.reset` is one of the resets of `State.resetWith_sound`. -/
theorem resetIsSound : Obligations.ResetIsSound :=
  ⟨State.resetWith_sound _ _, State.resetWith_sound⟩

/-- Fault entry with the load interface closed keeps the invariant (60_exceptions.md R124). -/
theorem raise_sound {s : State} (h : s.store.wf = true) (hl : s.loadOpen = false) (d : Cause) :
    (raise d s).Sound where
  canonical := raise_store_wf s d h
  cause_iff := by simp
  store_sound hn := absurd rfl hn
  load_window ho := absurd (hl.symm.trans ho) Bool.false_ne_true

/-- An instruction that completes keeps the invariant of a running machine whose load interface is
closed. -/
theorem Effect.sound {s t : State} {i : Instr} (h : Effect s i t) (hs : s.Sound)
    (hr : s.status = .running) (hl : s.loadOpen = false) : t.Sound := by
  have hrun : s.status ≠ .faulted := by simp [hr]
  have hcause : t.faultCause = none :=
    h.faultCause_eq.trans (not_not.1 fun hne => hrun (hs.cause_iff.2 hne))
  have hstatus : t.status ≠ .faulted := by
    rcases h.status_eq with e | ⟨_, e⟩ <;> simp [e, hr]
  exact {
    canonical := h.store_wf hs.canonical
    cause_iff := iff_of_false hstatus (not_not_intro hcause)
    store_sound := fun _ => h.store_sound (hs.store_sound hrun)
    load_window := fun ho => absurd ((h.loadOpen_eq.trans hl).symm.trans ho) Bool.false_ne_true }

/-- What fetch hands to dispatch is sound: only the pc and the load interface differ. -/
theorem State.Sound.closeLoad_advance {s : State} (h : s.Sound) : s.closeLoad.advance.Sound where
  canonical := h.canonical
  cause_iff := h.cause_iff
  store_sound := h.store_sound
  load_window ho := absurd ho Bool.false_ne_true

/-- Settles O28: a terminal state stays, a completing instruction keeps the store's invariants
(`Effect.sound`), and fault entry keeps what the invariant asks of a faulted machine. -/
theorem everyStepKeepsTheMachineSound : Obligations.EveryStepKeepsTheMachineSound := by
  intro s t hs h
  by_cases hr : s.status = .running
  · rcases step_running hr h with ⟨i, _, he⟩ | ⟨d, p, rfl⟩
    · exact he.sound hs.closeLoad_advance hr rfl
    · exact raise_sound (s := s.closeLoad.setPc p) hs.canonical rfl d
  · exact eq_of_step_of_terminal hr h ▸ hs

/-! ## Run status and program counter -/

/-- Settles O14: HALT is the only effect that touches the status, and fault entry gives `faulted`. -/
theorem haltedExactlyByHalt : Obligations.HaltedExactlyByHalt := by
  intro s t hs h
  constructor
  · intro ht
    obtain ⟨i, hf, he⟩ := step_completes hs h (by simp [ht])
    rcases he.status_eq with e | ⟨rfl, _⟩
    · exact nomatch hs.symm.trans (e.symm.trans ht)
    · exact hf
  · intro hf
    rw [step_of_fetchInstr hs hf] at h
    exact next_eq_next.1 h ▸ rfl

/-- Settles O20: by the effect's pc, and for a waiting IN because `retry` undoes the advance. -/
theorem programCounterAfterAStep : Obligations.ProgramCounterAfterAStep := by
  intro s t i hs hf h ht
  have he := effect_of_step hs hf h ht
  refine ⟨?_, ?_, fun hl hin => he.pc_eq hl hin⟩
  · rintro b c rfl
    exact he.pc_loadp
  · rintro c rfl hin
    exact (he.retry_of_no_answer hin).trans s.closeLoad.retry_advance

/-- Settles O13: a step leaves a terminal state, and so does a run, by induction on its length. -/
theorem terminalStatesStayAsTheyAre : Obligations.TerminalStatesStayAsTheyAre := by
  intro s k hs
  refine ⟨step_of_terminal hs, ?_⟩
  induction k with
  | zero => rfl
  | succ k ih => exact (run_succ_of_step (step_of_terminal hs)).trans ih

/-! ## Registers and channels -/

/-- Settles O21: by the effect on the registers, which fetch does not touch. -/
theorem onlyTheDestinationRegisterChanges : Obligations.OnlyTheDestinationRegisterChanges :=
  fun _ _ _ hs hf h ht _ hq => (effect_of_step hs hf h ht).readReg_eq hq

theorem lowByte_toNat {v : Word} (h : v.toNat ≤ 255) : (lowByte v).toNat = v.toNat := by
  simp only [lowByte, BitVec.toNat_setWidth]
  omega

/-- Settles O22: OUT is the only effect that touches the output, and its byte is the register's
value. -/
theorem outputGrowsOnlyThroughOut : Obligations.OutputGrowsOnlyThroughOut := by
  intro s t h
  by_cases hs : s.status = .running
  · rcases step_running hs h with ⟨i, hf, he⟩ | ⟨d, p, rfl⟩
    · rcases he.output_eq with e | ⟨c, rfl, hc, e⟩
      · exact .inl e
      · exact .inr ⟨c, _, hs, hf, hc, lowByte_toNat hc, e⟩
    · exact .inl rfl
  · exact .inl (eq_of_step_of_terminal hs h ▸ rfl)

/-- Settles O23: IN is the only effect that takes an answer. -/
theorem inputIsTakenOnlyByIn : Obligations.InputIsTakenOnlyByIn := by
  intro s t h
  by_cases hs : s.status = .running
  · rcases step_running hs h with ⟨i, hf, he⟩ | ⟨d, p, rfl⟩
    · rcases he.input_eq with e | ⟨c, x, rfl, e⟩
      · exact .inl e
      · exact .inr ⟨c, x, hs, hf, e⟩
    · exact .inl rfl
  · exact .inl (eq_of_step_of_terminal hs h ▸ rfl)

/-! ## Two runs that differ in the coming answers -/

/-- An instruction other than IN completes alike under any coming answers. -/
theorem completes_setInput {s t : State} {i : Instr} (as : List Answer) (hin : ∀ c, i ≠ .inp c)
    (h : Completes s t i) : Completes (s.setInput as) (t.setInput as) i := by
  cases i with
  | cmov a b c =>
    obtain ⟨hc, rfl⟩ | ⟨hc, rfl⟩ := h
    · exact .inl ⟨hc, rfl⟩
    · exact .inr ⟨hc, rfl⟩
  | sload a b c => obtain ⟨v, hv, rfl⟩ := h; exact ⟨v, hv, rfl⟩
  | sstore a b c => obtain ⟨st, hst, rfl⟩ := h; exact ⟨st, hst, rfl⟩
  | add a b c => cases h; rfl
  | mul a b c => cases h; rfl
  | div a b c => obtain ⟨hc, rfl⟩ := h; exact ⟨hc, rfl⟩
  | nand a b c => cases h; rfl
  | halt => cases h; rfl
  | map b c => obtain ⟨id, st, hst, rfl⟩ := h; exact ⟨id, st, hst, rfl⟩
  | unmap c => obtain ⟨st, hst, rfl⟩ := h; exact ⟨st, hst, rfl⟩
  | out c =>
    obtain ⟨hc, rfl⟩ | ⟨hc, rfl⟩ := h
    · exact .inl ⟨hc, rfl⟩
    · exact .inr ⟨hc, rfl⟩
  | inp c => exact absurd rfl (hin c)
  | loadp b c => obtain ⟨st, hst, rfl⟩ := h; exact ⟨st, hst, rfl⟩
  | loadv a imm => cases h; rfl

/-- No condition of a fault speaks of the coming answers (60_exceptions.md R120). -/
theorem raises_setInput {s : State} {d : Cause} {i : Instr} (as : List Answer) (h : Raises s d i) :
    Raises (s.setInput as) d i := by
  cases i <;> exact h

theorem fetchInstr_setInput (s : State) (as : List Answer) :
    fetchInstr (s.setInput as) = fetchInstr s := rfl

/-- Settles O24: fetch, the completion of an instruction other than IN and the conditions of the
faults do not read the coming answers, and the host sees of a fault its cause and the output only. -/
theorem pendingAnswersMatterOnlyToIn : Obligations.PendingAnswersMatterOnlyToIn := by
  intro s t as hs hin h
  have hs' : (s.setInput as).status = .running := hs
  rcases step_eq_next h with ⟨hn, _⟩ | ⟨_, i, hf, hc⟩ | ⟨_, i, d, hf, hd, rfl⟩ | ⟨_, d, hf, rfl⟩
  · exact absurd hs hn
  · refine ⟨t.setInput as, ?_, rfl, fun _ => rfl⟩
    rw [step_of_fetchInstr hs' hf]
    exact exec_eq_next.2 (.inl (completes_setInput as (fun c e => hin c (e ▸ hf)) hc))
  · refine ⟨raise d (s.setInput as).closeLoad.advance, ?_, rfl, fun hn => absurd rfl hn⟩
    rw [step_of_fetchInstr hs' hf]
    exact exec_eq_next.2 (.inr ⟨d, raises_setInput as hd, rfl⟩)
  · exact ⟨raise d (s.setInput as).closeLoad, step_of_fetchInstr_error hs' hf, rfl,
      fun hn => absurd rfl hn⟩

/-! ## The segment store -/

/-- Settles O25: an allocation with an empty free list is the only effect that touches the counter. -/
theorem counterRisesOnlyByMinting : Obligations.CounterRisesOnlyByMinting := by
  intro s t hs h ht
  obtain ⟨i, hf, he⟩ := step_completes hs h ht
  rcases he.nextId_eq with e | ⟨b, c, rfl, hfree, hnext, hb⟩
  · exact .inl e
  · exact .inr ⟨b, c, hf, hfree, hnext, hb⟩

/-- Settles O26: the invariant is needed for MAP, which could otherwise hand out an active
identifier. -/
theorem segmentsChangeOnlyByStoreOrUnmap : Obligations.SegmentsChangeOnlyByStoreOrUnmap := by
  intro s t id seg hsound hs h ht h0 hid
  obtain ⟨i, hf, he⟩ := step_completes hs h ht
  have hstore : s.store.Sound := hsound.store_sound (by simp [hs])
  rcases he.segment_eq hstore h0 hid with e | ⟨c, rfl, hc, e⟩ | ⟨a, b, c, rfl, ha, e⟩
  · exact .inl e
  · exact .inr (.inl ⟨c, hf, hc, e⟩)
  · exact .inr (.inr ⟨a, b, c, _, hf, ha, e, rfl, seg.read_write_same _ _,
      fun off hoff => seg.read_write_other hoff _⟩)

/-! ## Reset and the program-load interface -/

/-- Settles O9: the store's part by what `Store.initial` says of each identifier. -/
theorem resetLeavesTheSpecsValues : Obligations.ResetLeavesTheSpecsValues := by
  have hregs : ∀ r : Reg, State.reset.readReg r = 0 := fun r => by
    simp [State.reset, State.resetWith, State.readReg]
  have hslot : ∀ id : Word, id ≠ 0 → State.reset.store.slot id = none := fun id h0 =>
    (Store.initial_slot id).trans (if_neg h0)
  have hzero : State.reset.store.segment 0 = some ⟨0, []⟩ :=
    Store.segment_eq_some.2 ((Store.initial_slot 0).trans (if_pos rfl))
  exact ⟨hregs, rfl, rfl, rfl, ⟨_, hzero, rfl⟩, hslot, rfl, rfl, rfl, rfl, rfl, rfl⟩

theorem loadImage_closes {s t : State} {image : List Word} (h : s.loadImage image = some t) :
    t.loadOpen = false := by
  obtain ⟨_, _, rfl⟩ := loadImage_eq_some.1 h
  rfl

theorem loadImage_of_closed {s : State} (h : s.loadOpen = false) (image : List Word) :
    s.loadImage image = none := loadImage_eq_none.2 (.inl h)

theorem step_keeps_closed (s t : State) (hl : s.loadOpen = false) (h : step s = .next t) :
    t.loadOpen = false := by
  by_cases hs : s.status = .running
  · exact step_closes_load hs h
  · exact eq_of_step_of_terminal hs h ▸ hl

/-- A run from a machine whose load interface is closed ends in one that takes no image (R24). -/
theorem loadImage_after_run {s t : State} {k : Nat} (hl : s.loadOpen = false)
    (h : Sys2Proof.core.run k s = .next t) (image : List Word) : t.loadImage image = none :=
  loadImage_of_closed (run_keeps (P := fun u => u.loadOpen = false) step_keeps_closed hl h) image

/-- Settles O60: a load and a step close the interface, every run keeps it closed, and a sound
machine that has stopped has it closed. -/
theorem loadInterfaceIsUsedOnceBeforeTheFirstStep :
    Obligations.LoadInterfaceIsUsedOnceBeforeTheFirstStep := by
  refine ⟨fun s image => ?_, fun s t image => loadImage_closes, fun _ _ => rfl,
    fun s t => step_closes_load, fun s t k image hl h => loadImage_after_run hl h image,
    fun regs pool bytes answers s t k image hb h => loadImage_after_run (loadImage_closes hb) h image,
    fun s image hsound hs => ?_⟩
  · simp only [loadImage_eq_some, exists_and_left, exists_eq, and_true]
  · exact loadImage_of_closed (Bool.eq_false_iff.2 fun ho => hs (hsound.load_window ho).1) image

/-! ## The placing of an instruction -/

/-- Segment 0 is long enough for the word placed at `pc`, if a segment can hold a word there. -/
theorem lt_segmentWithWord_len {pc : Word} (h : pc.toNat < 2 ^ 32 - 1) (seg : Segment) (w : Word) :
    pc.toNat < (segmentWithWord seg pc w).len.toNat := by
  simp only [segmentWithWord, Segment.write_len]
  split
  · bv_omega
  · omega

theorem fetchWord_placeWord {s : State} (h : s.pc.toNat < 2 ^ 32 - 1) (w : Word) :
    fetchWord (placeWord s w) = .ok w :=
  memRead_eq_ok.2 ⟨_, s.store.segment_setSlot_active 0 _, lt_segmentWithWord_len h _ w,
    (Segment.read_write_same _ _ _).symm⟩

/-- Settles O59: the word is in range of segment 0 and is the one read there. -/
theorem placedWordIsFetched : Obligations.PlacedWordIsFetched := by
  intro s w h
  have hw : BitVec.ofNat 32 (w % 2 ^ 32) = BitVec.ofNat 32 w := by
    simp [← BitVec.toNat_inj]
  exact ⟨rfl, hw ▸ fetchWord_placeWord h _, rfl, fun _ => rfl, rfl, rfl⟩

end Sys2Proof.Machine
end

section
/-!
SUPPORT. The loader's conversion of image bytes to words (20_memory.md R32, R33): the number of a
word, how many words there are, and which bytes each is made of.
-/

namespace Sys2Proof

/-- A byte put at offset `o` below the bits of `q`, where the word is still clear (30_encoding.md
R71). -/
theorem insertUnsigned_byte_toNat {w : Word} {q o : Nat} (h : 8 + o ≤ 32)
    (hw : w.toNat = q * 2 ^ (8 + o)) (b : Byte) :
    (insertUnsigned w 8 o (b.setWidth 32) h).toNat = (q * 2 ^ 8 + b.toNat) * 2 ^ o := by
  have hsplit : q * 2 ^ (8 + o) = q * 2 ^ 8 * 2 ^ o := by rw [Nat.pow_add, Nat.mul_assoc]
  have hclear : (extractUnsigned w 8 o h).toNat = 0 := by
    rw [extractUnsigned_toNat, hw, hsplit, Nat.mul_div_cancel _ (Nat.two_pow_pos o),
      Nat.mul_mod_left]
  have hlimit : 2 ^ (24 - o) * 2 ^ 8 * 2 ^ o = 2 ^ 32 := by
    rw [← Nat.pow_add, ← Nat.pow_add]
    congr 1
    omega
  have hq : q < 2 ^ (24 - o) := by
    refine Nat.lt_of_mul_lt_mul_right (a := 2 ^ 8 * 2 ^ o) ?_
    rw [← Nat.mul_assoc, ← Nat.mul_assoc, hlimit, ← hsplit, ← hw]
    exact w.isLt
  have hbound : (q * 2 ^ 8 + b.toNat) * 2 ^ o < 2 ^ 32 := by
    rw [← hlimit]
    exact Nat.mul_lt_mul_of_pos_right (by omega) (Nat.two_pow_pos o)
  have hbyte : (b.setWidth 32).toNat % 2 ^ 8 = b.toNat := by
    rw [BitVec.toNat_setWidth]
    omega
  rw [insertUnsigned, hclear, hbyte, hw, hsplit, Nat.zero_mul, Nat.sub_zero, ← Nat.add_mul,
    BitVec.toNat_ofNat, Nat.mod_eq_of_lt hbound]

/-- The number of the word of four bytes: each byte goes below the ones before it (R77). -/
theorem wordOfBytes_toNat (b0 b1 b2 b3 : Byte) :
    (wordOfBytes b0 b1 b2 b3).toNat =
      b0.toNat * 2 ^ 24 + b1.toNat * 2 ^ 16 + b2.toNat * 2 ^ 8 + b3.toNat := by
  have h0 := insertUnsigned_byte_toNat (w := 0) (q := 0) (o := 24) (by decide) rfl b0
  rw [Nat.zero_mul, Nat.zero_add] at h0
  have h1 := insertUnsigned_byte_toNat (o := 16) (by decide) h0 b1
  have h2 := insertUnsigned_byte_toNat (o := 8) (by decide) h1 b2
  have h3 := insertUnsigned_byte_toNat (o := 0) (by decide) h2 b3
  refine h3.trans ?_
  omega

theorem exists_four_cons {bytes : List Byte} (h : 4 ≤ bytes.length) :
    ∃ b0 b1 b2 b3 rest, bytes = b0 :: b1 :: b2 :: b3 :: rest := by
  match bytes, h with
  | b0 :: b1 :: b2 :: b3 :: rest, _ => exact ⟨b0, b1, b2, b3, rest, rfl⟩

theorem wordsOfBytes_length (bytes : List Byte) :
    (wordsOfBytes bytes).length = bytes.length / 4 := by
  induction bytes using wordsOfBytes.induct with
  | case1 b0 b1 b2 b3 rest ih =>
    simp only [wordsOfBytes, List.length_cons, ih]
    omega
  | case2 bytes hshort =>
    have hlt : bytes.length < 4 := by
      by_contra hge
      obtain ⟨b0, b1, b2, b3, rest, e⟩ := exists_four_cons (Nat.le_of_not_lt hge)
      exact hshort b0 b1 b2 b3 rest e
    rw [wordsOfBytes.eq_2 bytes hshort, List.length_nil, Nat.div_eq_of_lt hlt]

/-- Fewer than four bytes hold no word (20_memory.md R33). -/
theorem wordsOfBytes_of_short {bytes : List Byte} (h : bytes.length < 4) :
    wordsOfBytes bytes = [] :=
  List.length_eq_zero_iff.1 ((wordsOfBytes_length bytes).trans (Nat.div_eq_of_lt h))

/-- The conversion goes group by group of four bytes. -/
theorem wordsOfBytes_append {bytes : List Byte} {n : Nat} (h : bytes.length = 4 * n)
    (tail : List Byte) : wordsOfBytes (bytes ++ tail) = wordsOfBytes bytes ++ wordsOfBytes tail := by
  induction n generalizing bytes with
  | zero => rw [List.length_eq_zero_iff.1 h]; rfl
  | succ n ih =>
    obtain ⟨b0, b1, b2, b3, rest, rfl⟩ := exists_four_cons (by omega : 4 ≤ bytes.length)
    have hrest : rest.length = 4 * n := by simp only [List.length_cons] at h; omega
    simp only [List.cons_append, wordsOfBytes, ih hrest]

/-- Word `i` is made of the four bytes from `4 i` on (R32). -/
theorem wordsOfBytes_getD {bytes : List Byte} {i : Nat} (h : i < bytes.length / 4) :
    (wordsOfBytes bytes).getD i 0 =
      wordOfBytes (bytes.getD (4 * i) 0) (bytes.getD (4 * i + 1) 0) (bytes.getD (4 * i + 2) 0)
        (bytes.getD (4 * i + 3) 0) := by
  induction i generalizing bytes with
  | zero =>
    obtain ⟨b0, b1, b2, b3, rest, rfl⟩ := exists_four_cons (by omega : 4 ≤ bytes.length)
    rfl
  | succ i ih =>
    obtain ⟨b0, b1, b2, b3, rest, rfl⟩ := exists_four_cons (by omega : 4 ≤ bytes.length)
    have hi : i < rest.length / 4 := by simp only [List.length_cons] at h; omega
    exact ih hi

end Sys2Proof
end

section
/-!
SUPPORT. Laws the statements about memory rest on: fault entry as the host sees it, the words in use
after each primitive (20_memory.md R53), what each primitive does to segment 0 and to the free list
(R39 to R43), and boot.
-/

namespace Sys2Proof.Machine

/-! ## Fault entry -/

theorem raised_raise (c : Cause) (s : State) : Raised c s (raise c s) := ⟨rfl, rfl, ⟨rfl, rfl⟩, rfl⟩

/-- Closing the load interface first changes nothing that fault entry shows. -/
theorem raised_raise_closeLoad (c : Cause) (s : State) : Raised c s (raise c s.closeLoad) :=
  raised_raise c s.closeLoad

/-- An instruction that leaves the engine running found it running and completed. -/
theorem completes_of_running {i : Instr} {s t : State} (h : exec i s = .next t)
    (ht : t.status = .running) : s.status = .running ∧ Completes s t i := by
  rcases exec_eq_next.1 h with hc | ⟨d, _, rfl⟩
  · rcases (effect_of_completes hc).status_eq with e | ⟨_, e⟩
    · exact ⟨e.symm.trans ht, hc⟩
    · exact nomatch e.symm.trans ht
  · exact nomatch ht

/-- A fetch at or beyond the length of segment 0 raises (40_engine.md R82). -/
theorem fetchInstr_past_end {s : State} {seg : Segment} (hseg : s.store.segment 0 = some seg)
    (hpc : seg.len.toNat ≤ s.pc.toNat) : fetchInstr s = .error (.offsetOutOfRange 0 s.pc) :=
  fetchInstr_eq_error.2
    (.inl (memRead_eq_error.2 (locate_eq_error.2 (.inr ⟨seg, hseg, hpc, rfl⟩))))

theorem step_past_end {s : State} {seg : Segment} (hs : s.status = .running)
    (hseg : s.store.segment 0 = some seg) (hpc : seg.len.toNat ≤ s.pc.toNat) :
    ∃ t, step s = .next t ∧ Raised (.offsetOutOfRange 0 s.pc) s t :=
  ⟨_, step_of_fetchInstr_error hs (fetchInstr_past_end hseg hpc), raised_raise_closeLoad _ s⟩

/-! ## The words in use -/

theorem fitsPool_mono {pool : Option Nat} {m n : Nat} (hmn : m ≤ n) (h : fitsPool pool n = true) :
    fitsPool pool m = true := by
  cases pool with
  | none => rfl
  | some p => exact decide_eq_true (hmn.trans (of_decide_eq_true h))

section WordsInUse
variable {pool : Option Nat} {st st' : Store} {id off v n src : Word}

theorem Store.wordsInUse_setSlot_le (h : st.wf = true) (id : Word) (x : Slot) :
    (st.setSlot id x).wordsInUse ≤ st.wordsInUse + x.words :=
  Nat.le.intro (Store.wordsInUse_setSlot h id x)

theorem Store.wordsInUse_congr (h : st'.table = st.table) : st'.wordsInUse = st.wordsInUse := by
  simp [Store.wordsInUse, h]

/-- A write keeps every length, hence the words in use. -/
theorem memWrite_wordsInUse (h : st.wf = true) (hw : memWrite st id off v = .ok st') :
    st'.wordsInUse = st.wordsInUse := by
  obtain ⟨seg, hseg, _, rfl⟩ := memWrite_eq_ok.1 hw
  have := Store.wordsInUse_setSlot h id (.active (seg.write off v))
  rw [Store.segment_eq_some.1 hseg] at this
  exact Nat.add_right_cancel this

theorem segUnmap_wordsInUse_le (h : st.wf = true) (hu : segUnmap st id = .ok st') :
    st'.wordsInUse ≤ st.wordsInUse := by
  obtain ⟨_, _, rfl⟩ := segUnmap_eq_ok.1 hu
  exact Store.wordsInUse_setSlot_le h id .tombstone

/-- An allocation that answers has tested the sum it leaves, or more (20_memory.md R53). -/
theorem segMap_fitsPool (h : st.wf = true) (hm : segMap pool st n = .ok (id, st')) :
    fitsPool pool st'.wordsInUse = true := by
  obtain ⟨st1, hid, hfits, rfl⟩ := segMap_eq_ok.1 hm
  have htable := newId_table hid
  have hle := Store.wordsInUse_setSlot_le ((Store.wf_congr htable).trans h) id
    (.active (Segment.zeros n))
  rw [Store.wordsInUse_congr htable] at hle
  exact fitsPool_mono hle hfits

/-- A copy that answers has tested the sum it leaves, or more; from segment 0 there is no copy. -/
theorem segReplaceZero_fitsPool (h : st.wf = true) (hfits : fitsPool pool st.wordsInUse = true)
    (hr : segReplaceZero pool st src = .ok st') : fitsPool pool st'.wordsInUse = true := by
  obtain ⟨seg, _, ⟨_, rfl⟩ | ⟨_, hcopy, rfl⟩⟩ := segReplaceZero_eq_ok.1 hr
  · exact hfits
  · exact fitsPool_mono (Store.wordsInUse_setSlot_le h 0 (.active seg)) hcopy

end WordsInUse

/-- No instruction changes the pool parameter (log entry 8). -/
theorem Effect.poolWords_eq {s t : State} {i : Instr} (h : Effect s i t) :
    t.poolWords = s.poolWords := by cases h <;> rfl

/-- An instruction that completes keeps the words in use within the pool. -/
theorem Effect.store_fitsPool {s t : State} {i : Instr} (h : Effect s i t) (hwf : s.store.wf = true)
    (hfits : fitsPool s.poolWords s.store.wordsInUse = true) :
    fitsPool t.poolWords t.store.wordsInUse = true := by
  rw [h.poolWords_eq]
  cases h with
  | stored hst => exact fitsPool_mono (memWrite_wordsInUse hwf hst).le hfits
  | mapped hst => exact segMap_fitsPool hwf hst
  | unmapped hst => exact fitsPool_mono (segUnmap_wordsInUse_le hwf hst) hfits
  | loaded hst => exact segReplaceZero_fitsPool hwf hfits hst
  | _ => exact hfits

/-! ## Reads of a segment, and segment 0 -/

section Reads
variable {pool : Option Nat} {st st' : Store} {id off v n src : Word}

/-- A read depends on the segment of its identifier alone. -/
theorem memRead_congr_segment (h : st'.segment id = st.segment id) (off : Word) :
    memRead st' id off = memRead st id off := by
  simp only [memRead, Store.locate, h]

/-- Two identifiers with the same segment read alike; only the causes of a fault name them. -/
theorem memRead_eq_ok_congr {j : Word} (h : st'.segment j = st.segment id) :
    memRead st' j off = .ok v ↔ memRead st id off = .ok v := by
  simp only [memRead_eq_ok, h]

/-- After its replacement segment 0 is the source segment, also where the source is segment 0
itself (20_memory.md R42, R43). -/
theorem segReplaceZero_segment_zero (h : segReplaceZero pool st src = .ok st') :
    st'.segment 0 = st.segment src := by
  obtain ⟨seg, hseg, ⟨rfl, rfl⟩ | ⟨_, _, rfl⟩⟩ := segReplaceZero_eq_ok.1 h
  · rfl
  · exact (st.segment_setSlot_active 0 seg).trans hseg.symm

theorem segUnmap_ne_zero (h : segUnmap st id = .ok st') : id ≠ 0 := (segUnmap_eq_ok.1 h).1

/-- An allocation never returns identifier 0, which is active (R18, R39). -/
theorem Store.Sound.segMap_ne_zero (hs : st.Sound) (h : segMap pool st n = .ok (id, st')) :
    id ≠ 0 := by
  rintro rfl
  obtain ⟨seg, hseg⟩ := hs.zero_active
  exact nomatch (Store.segment_eq_some.2 hseg).symm.trans (hs.segMap_inactive h)

theorem segMap_segment_same (h : segMap pool st n = .ok (id, st')) :
    st'.segment id = some (Segment.zeros n) := by
  obtain ⟨st1, _, _, rfl⟩ := segMap_eq_ok.1 h
  exact st1.segment_setSlot_active id _

end Reads

/-- LOADP makes segment 0 the source segment (44_control.md R111). -/
theorem Effect.segment_zero_loadp {s t : State} {b c : Reg} (h : Effect s (.loadp b c) t) :
    t.store.segment 0 = s.store.segment (s.readReg b) := by
  cases h with
  | wrote v hd _ => exact nomatch hd
  | loaded hst => exact segReplaceZero_segment_zero hst

/-- A word of segment 0 changes only by LOADP and by an SSTORE at its own offset (20_memory.md R52,
R54). -/
theorem Effect.memRead_zero {s t : State} {i : Instr} (h : Effect s i t) (hs : s.store.Sound)
    (hl : ∀ b c, i ≠ .loadp b c) {off : Word}
    (hoff : ∀ a b c, i = .sstore a b c → s.readReg a = 0 → s.readReg b ≠ off) :
    memRead t.store 0 off = memRead s.store 0 off := by
  cases h with
  | @stored a b c _ hst =>
    exact memRead_memWrite_other hst fun ⟨ha, hb⟩ => hoff a b c rfl ha.symm hb.symm
  | mapped hst =>
    exact memRead_congr_segment (segMap_segment_other hst (hs.segMap_ne_zero hst).symm) off
  | unmapped hst =>
    exact memRead_congr_segment (segUnmap_segment_other hst (segUnmap_ne_zero hst).symm) off
  | @loaded b c => exact absurd rfl (hl b c)
  | _ => rfl

/-! ## The free list -/

theorem segUnmap_free {st st' : Store} {id : Word} (h : segUnmap st id = .ok st') :
    st'.free = st.free ++ [id] := by
  obtain ⟨_, _, rfl⟩ := segUnmap_eq_ok.1 h
  rfl

/-- An allocation takes the oldest freed identifier, if there is one, and mints none (R40). -/
theorem segMap_of_free_cons {pool : Option Nat} {st st' : Store} {n id f : Word} {rest : List Word}
    (hfree : st.free = f :: rest) (h : segMap pool st n = .ok (id, st')) :
    id = f ∧ st'.free = rest ∧ st'.nextId = st.nextId := by
  obtain ⟨st1, hid, _, rfl⟩ := segMap_eq_ok.1 h
  rcases newId_eq_some.1 hid with ⟨rest', hcons, rfl⟩ | ⟨hnil, _⟩
  · obtain ⟨rfl, rfl⟩ := List.cons.inj (hcons.symm.trans hfree)
    exact ⟨rfl, rfl, rfl⟩
  · exact nomatch hnil.symm.trans hfree

/-! ## Boot -/

/-- An image that fits is taken at boot and becomes segment 0 (70_reset_and_hazards.md R142). -/
theorem boot_of_imageFits {pool : Option Nat} {bytes : List Byte} (regs : Vector Word 8)
    (answers : List Answer) (h : imageFits pool (bytes.length / 4) = true) :
    ∃ s, State.boot regs pool bytes answers = some s ∧ s.status = .running ∧ s.pc = 0 ∧
      s.store.segment 0 = some (Segment.ofWords (wordsOfBytes bytes)) :=
  ⟨_, loadImage_eq_some.2 ⟨rfl, (wordsOfBytes_length bytes).symm ▸ h, rfl⟩, rfl, rfl,
    Store.segment_setSlot_active _ 0 _⟩

/-- An image without a word fits every pool (20_memory.md R33). -/
theorem imageFits_zero (pool : Option Nat) : imageFits pool 0 = true := by
  cases pool <;> simp [imageFits, fitsPool]

end Sys2Proof.Machine
end

section
/-!
PROOFS. The statements about memory (20_memory.md): the pool bound, the program image, the segment
fetch reads, the allocation of identifiers and the replacement of segment 0.
-/

namespace Sys2Proof.Machine

/-! ## The pool bound -/

/-- Settles O30: `Effect.store_fitsPool` for a step that completes; a faulted machine is not asked. -/
theorem everyStepKeepsThePoolBound : Obligations.EveryStepKeepsThePoolBound := by
  intro s t hs hpool h
  by_cases hr : s.status = .running
  · have hfits := hpool (by simp [hr])
    rcases step_running hr h with ⟨i, _, he⟩ | ⟨d, p, rfl⟩
    · exact fun _ => he.store_fitsPool hs.canonical hfits
    · exact fun hn => absurd rfl hn
  · exact eq_of_step_of_terminal hr h ▸ hpool

/-- Settles O46: both conditions are those under which `segMap` raises. -/
theorem mapFaultsWhenExhausted : Obligations.MapFaultsWhenExhausted := fun _ _ s h =>
  ⟨_, exec_eq_next.2 (.inr ⟨_, segMap_eq_error.2 ⟨rfl, h.imp_left newId_eq_none.2⟩, rfl⟩),
    raised_raise _ s⟩

/-! ## The program image -/

/-- Settles O7: the image of fewer than four bytes makes segment 0 empty, and the fetch at 0 is past
its end. -/
theorem imageLengthIsWholeWords : Obligations.ImageLengthIsWholeWords := by
  refine ⟨wordsOfBytes_length, fun bytes n tail hlen htail => ?_, fun regs bytes answers hlen => ?_,
    fun regs pool bytes answers hlen => ?_⟩
  · rw [wordsOfBytes_append hlen, wordsOfBytes_of_short htail, List.append_nil]
  · have hfits : imageFits none (bytes.length / 4) = true := by simpa [imageFits, fitsPool] using hlen
    obtain ⟨s, hs, _⟩ := boot_of_imageFits regs answers hfits
    exact ⟨s, hs⟩
  · have hfits : imageFits pool (bytes.length / 4) = true :=
      (Nat.div_eq_of_lt hlen).symm ▸ imageFits_zero pool
    obtain ⟨s, hs, hrun, hpc, hseg⟩ := boot_of_imageFits regs answers hfits
    rw [wordsOfBytes_of_short hlen] at hseg
    obtain ⟨t, ht, hraised⟩ := step_past_end hrun hseg (Nat.zero_le _)
    exact ⟨s, t, hs, ht, hpc ▸ hraised⟩

/-- Settles O8: the word is that of its four bytes, whose number is the sum. -/
theorem imageWordsAreBigEndian : Obligations.ImageWordsAreBigEndian := fun _ _ h =>
  (congrArg BitVec.toNat (wordsOfBytes_getD h)).trans (wordOfBytes_toNat _ _ _ _)

/-! ## Fetch -/

/-- A length is a word, so at most the last offset (20_memory.md R31). -/
theorem Segment.len_le_lastOffset (seg : Segment) : seg.len.toNat ≤ (0xFFFFFFFF : Word).toNat :=
  Nat.le_of_lt_succ seg.len.isLt

/-- Settles O27: no length exceeds the last offset, so a fetch there is past the end. -/
theorem lastOffsetIsNeverInRange : Obligations.LastOffsetIsNeverInRange := by
  refine ⟨fun st id v h => ?_, fun s hs hpc ⟨seg, hseg⟩ => ?_⟩
  · obtain ⟨seg, _, hlt, _⟩ := memRead_eq_ok.1 h
    exact absurd hlt (Nat.not_lt.2 seg.len_le_lastOffset)
  · rw [← hpc]
    exact step_past_end hs hseg (hpc ▸ seg.len_le_lastOffset)

/-- Settles O44: fetch is a read of segment 0, so the three parts are the read after a write, segment
0 after its replacement (`Effect.segment_zero_loadp`), and its frame (`Effect.memRead_zero`). -/
theorem storesToSegmentZeroAreFetched : Obligations.StoresToSegmentZeroAreFetched := by
  refine ⟨fun s a b c seg hs hf ha hseg hlt => ?_, fun s t b c hs hf h ht off v => ?_,
    fun s t hsound hs h ht hl off hoff => ?_⟩
  · obtain ⟨st, hst⟩ : ∃ st, memWrite s.store 0 (s.readReg b) (s.readReg c) = .ok st :=
      ⟨_, memWrite_eq_ok.2 ⟨seg, hseg, hlt, rfl⟩⟩
    refine ⟨s.closeLoad.advance.setStore st, ?_, hs, memRead_memWrite_same hst, fun off hoff =>
      memRead_memWrite_other hst fun e => hoff e.2⟩
    rw [step_of_fetchInstr hs hf]
    exact exec_eq_next.2 (.inl ⟨st, ha ▸ hst, rfl⟩)
  · exact memRead_eq_ok_congr (effect_of_step hs hf h ht).segment_zero_loadp
  · obtain ⟨i, hf, he⟩ := step_completes hs h ht
    refine he.memRead_zero (hsound.store_sound (by simp [hs])) ?_ ?_
    · rintro b c rfl
      exact hl b c hf
    · rintro a b c rfl
      exact hoff a b c hf

/-! ## Identifiers -/

/-- Settles O47: the allocation's identifier was inactive, hence is not 0, and holds the new
segment. -/
theorem mapReturnsAnInactiveIdentifier : Obligations.MapReturnsAnInactiveIdentifier := by
  intro b c s t hs hr h ht
  rcases exec_eq_next.1 h with ⟨id, st, hm, rfl⟩ | ⟨d, _, rfl⟩
  · have hstore : s.store.Sound := hs.store_sound (by simp [hr])
    rw [State.readReg_writeReg_same]
    exact ⟨hstore.segMap_ne_zero hm, hstore.segMap_inactive hm, _, segMap_segment_same hm⟩
  · exact absurd rfl ht

/-- Settles O50: the engine still runs at the end, so all four instructions completed; the free list
is `[]`, `[x]`, `[x, y]`, `[y]` and `[]` again. -/
theorem freedIdentifiersAreReusedInOrder : Obligations.FreedIdentifiersAreReusedInOrder := by
  intro c1 c2 b1 n1 b2 n2 s s1 s2 s3 s4 hfree h1 h2 h3 h4 hrun
  obtain ⟨hrun, id4, st4, hm4, rfl⟩ := completes_of_running h4 hrun
  obtain ⟨hrun, id3, st3, hm3, rfl⟩ := completes_of_running h3 hrun
  obtain ⟨hrun, st2, hu2, rfl⟩ := completes_of_running h2 hrun
  obtain ⟨_, st1, hu1, rfl⟩ := completes_of_running h1 hrun
  have hfree1 : st1.free = [s.readReg c1] := by rw [segUnmap_free hu1, hfree]; rfl
  have hfree2 : st2.free = [s.readReg c1, s.readReg c2] :=
    (segUnmap_free hu2).trans (congrArg (· ++ [s.readReg c2]) hfree1)
  obtain ⟨rfl, hfree3, hnext3⟩ := segMap_of_free_cons hfree2 hm3
  obtain ⟨rfl, hfree4, hnext4⟩ := segMap_of_free_cons hfree3 hm4
  refine ⟨State.readReg_writeReg_same _ _ _, State.readReg_writeReg_same _ _ _, hfree4, ?_⟩
  calc st4.nextId = st3.nextId := hnext4
    _ = st2.nextId := hnext3
    _ = st1.nextId := segUnmap_nextId hu2
    _ = s.store.nextId := segUnmap_nextId hu1

/-! ## The replacement of segment 0 -/

/-- Settles O55: segment 0 becomes the source segment, and a write or an UNMAP touches the segment it
names alone. -/
theorem replacedSegmentZeroIsADeepCopy : Obligations.ReplacedSegmentZeroIsADeepCopy := by
  intro pool st st' src h0 h
  exact ⟨fun off v => memRead_eq_ok_congr (segReplaceZero_segment_zero h),
    fun k v st'' hw off => memRead_memWrite_other hw fun e => h0 e.1.symm,
    fun k v st'' hw off => memRead_memWrite_other hw fun e => h0 e.1,
    fun st'' hu off => memRead_congr_segment (segUnmap_segment_other hu h0.symm) off⟩

end Sys2Proof.Machine
end

section
/-!
SUPPORT. The decoder and the encoder against each other (30_encoding.md R61 to R69, R74): the number
of the fields an instruction uses, the encoder in terms of it, and the words that decode to a given
instruction or to none.
-/

namespace Sys2Proof.Machine

/-! ## The fields of a word, together -/

/-- The opcode field has no bits above it (R61). -/
theorem opcodeField_toNat (w : Word) : (extractUnsigned w 4 28).toNat = w.toNat / 2 ^ 28 := by
  rw [extractUnsigned_toNat]
  omega

theorem bitsOf_opcode (w : Word) : bitsOf w 31 28 = w.toNat / 2 ^ 28 := by
  unfold bitsOf
  omega

section Fields
variable {w : Word} {a b c : Reg}

/-- The fields A, B and C are the low nine bits (R62). -/
theorem regFields_abc :
    (regField w 6 = a ∧ regField w 3 = b ∧ regField w 0 = c) ↔
      w.toNat % 2 ^ 9 = a.val * 64 + b.val * 8 + c.val := by
  simp only [Fin.ext_iff, regField_val]
  omega

theorem regFields_bc :
    (regField w 3 = b ∧ regField w 0 = c) ↔ w.toNat % 2 ^ 6 = b.val * 8 + c.val := by
  simp only [Fin.ext_iff, regField_val]
  omega

theorem regField_c : regField w 0 = c ↔ w.toNat % 2 ^ 3 = c.val := by
  simp only [Fin.ext_iff, regField_val]
  omega

/-- The fields of the format I are all the bits below the opcode (R63). -/
theorem immFields {imm : Word} :
    (regField w 25 = a ∧ extractUnsigned w 25 0 = imm) ↔
      imm.toNat < immLimit ∧ w.toNat % 2 ^ 28 = a.val * 2 ^ 25 + imm.toNat := by
  simp only [Fin.ext_iff, regField_val, ← BitVec.toNat_inj, extractUnsigned_toNat, immLimit]
  omega

end Fields

/-! ## The encoder -/

/-- The fields an instruction uses, as the number they make in the low bits of its word (R74). -/
def usedFields : Instr → Nat
  | .cmov a b c => a.val * 64 + b.val * 8 + c.val
  | .sload a b c => a.val * 64 + b.val * 8 + c.val
  | .sstore a b c => a.val * 64 + b.val * 8 + c.val
  | .add a b c => a.val * 64 + b.val * 8 + c.val
  | .mul a b c => a.val * 64 + b.val * 8 + c.val
  | .div a b c => a.val * 64 + b.val * 8 + c.val
  | .nand a b c => a.val * 64 + b.val * 8 + c.val
  | .halt => 0
  | .map b c => b.val * 8 + c.val
  | .unmap c => c.val
  | .out c => c.val
  | .inp c => c.val
  | .loadp b c => b.val * 8 + c.val
  | .loadv a imm => a.val * 2 ^ 25 + imm.toNat

theorem wellFormed_loadv {a : Reg} {imm : Word} :
    (Instr.loadv a imm).wellFormed = true ↔ imm.toNat < immLimit := decide_eq_true_iff

/-- The used fields lie below the opcode (R62, R63). -/
theorem lowBitsUsed_le (i : Instr) : lowBitsUsed i ≤ 28 := by
  cases i <;> simp [lowBitsUsed]

theorem usedFields_lt {i : Instr} (h : i.wellFormed = true) : usedFields i < 2 ^ lowBitsUsed i := by
  cases i
  case loadv a imm =>
    have himm := wellFormed_loadv.1 h
    simp only [usedFields, lowBitsUsed, immLimit] at *
    omega
  all_goals
    simp only [usedFields, lowBitsUsed]
    omega

/-- The word of an instruction is its opcode and its used fields, all other bits 0 (R74). -/
theorem encode_toNat {i : Instr} (h : i.wellFormed = true) :
    (encode i).toNat = i.opcode * 2 ^ 28 + usedFields i := by
  cases i
  case loadv a imm =>
    exact (encodeI_toNat a (wellFormed_loadv.1 h)).trans (Nat.add_assoc _ _ _)
  case halt => rfl
  all_goals
    rw [encode, encodeR_toNat (by decide)]
    simp only [Instr.opcode, usedFields, Fin.val_zero]
    omega

/-! ## The decoder -/

/-- The words that decode to an instruction: those that hold its opcode and its used fields,
whatever the other bits (R66, R68, R69). -/
theorem decode_eq_ok {w : Word} {i : Instr} :
    decode w = .ok i ↔
      i.wellFormed = true ∧ w.toNat / 2 ^ 28 = i.opcode ∧
        w.toNat % 2 ^ lowBitsUsed i = usedFields i := by
  rw [decode, opcodeField_toNat]
  constructor
  · intro h
    split at h
    case h_1 hop | h_2 hop | h_3 hop | h_4 hop | h_5 hop | h_6 hop | h_7 hop =>
      cases h
      exact ⟨rfl, hop, regFields_abc.1 ⟨rfl, rfl, rfl⟩⟩
    case h_8 hop =>
      cases h
      exact ⟨rfl, hop, Nat.mod_one _⟩
    case h_9 hop | h_13 hop =>
      cases h
      exact ⟨rfl, hop, regFields_bc.1 ⟨rfl, rfl⟩⟩
    case h_10 hop | h_11 hop | h_12 hop =>
      cases h
      exact ⟨rfl, hop, regField_c.1 rfl⟩
    case h_14 hop =>
      cases h
      obtain ⟨himm, hlow⟩ := immFields.1 ⟨rfl, rfl⟩
      exact ⟨wellFormed_loadv.2 himm, hop, hlow⟩
    case h_15 => cases h
  · rintro ⟨hwf, hop, hlow⟩
    rw [hop]
    cases i
    case cmov | sload | sstore | add | mul | div | nand =>
      obtain ⟨rfl, rfl, rfl⟩ := regFields_abc.2 hlow
      rfl
    case halt => rfl
    case map | loadp =>
      obtain ⟨rfl, rfl⟩ := regFields_bc.2 hlow
      rfl
    case unmap | out | inp =>
      obtain rfl := regField_c.2 hlow
      rfl
    case loadv =>
      obtain ⟨rfl, rfl⟩ := immFields.2 ⟨wellFormed_loadv.1 hwf, hlow⟩
      rfl

/-- A word is no instruction exactly if its opcode is 14 or more (R67). -/
theorem decode_eq_error {w : Word} {e : DecodeError} :
    decode w = .error e ↔ 14 ≤ bitsOf w 31 28 ∧ e = .invalidOpcode w := by
  rw [bitsOf_opcode]
  constructor
  · intro h
    rw [decode, opcodeField_toNat] at h
    split at h
    case h_15 =>
      cases h
      refine ⟨?_, rfl⟩
      simp only [imp_false] at *
      omega
    all_goals cases h
  · rintro ⟨hop, rfl⟩
    rw [decode, opcodeField_toNat]
    split
    case h_15 => rfl
    all_goals omega

end Sys2Proof.Machine
end

section
/-!
SUPPORT. The bit-field codec (30_encoding.md R70, R71): an insertion replaces one digit of the word
and leaves the part above and the part below.
-/

namespace Sys2Proof

section Codec
variable {k o : Nat}

/-- The field of a word, between the part above it and the part below it. -/
theorem word_split (w : Word) (k o : Nat) :
    w.toNat =
      (w.toNat / 2 ^ o / 2 ^ k * 2 ^ k + w.toNat / 2 ^ o % 2 ^ k) * 2 ^ o + w.toNat % 2 ^ o := by
  rw [Nat.div_add_mod', Nat.div_add_mod']

/-- The part above a field leaves room for the field and the part below. -/
theorem replaced_lt (w : Word) (h : k + o ≤ 32) {f : Nat} (hf : f < 2 ^ k) :
    (w.toNat / 2 ^ o / 2 ^ k * 2 ^ k + f) * 2 ^ o + w.toNat % 2 ^ o < 2 ^ 32 := by
  have hlimit : 2 ^ (32 - o - k) * 2 ^ k * 2 ^ o = 2 ^ 32 := by
    rw [← Nat.pow_add, ← Nat.pow_add]
    congr 1
    omega
  have hhigh : w.toNat / 2 ^ o / 2 ^ k < 2 ^ (32 - o - k) := by
    refine Nat.div_lt_of_lt_mul (Nat.div_lt_of_lt_mul ?_)
    rw [Nat.mul_comm, Nat.mul_comm (2 ^ k), hlimit]
    exact w.isLt
  have hlow : w.toNat % 2 ^ o < 2 ^ o := Nat.mod_lt _ (Nat.two_pow_pos o)
  rw [← hlimit]
  calc (w.toNat / 2 ^ o / 2 ^ k * 2 ^ k + f) * 2 ^ o + w.toNat % 2 ^ o
      < (w.toNat / 2 ^ o / 2 ^ k * 2 ^ k + f + 1) * 2 ^ o := by rw [Nat.succ_mul]; omega
    _ ≤ ((w.toNat / 2 ^ o / 2 ^ k + 1) * 2 ^ k) * 2 ^ o := by
      refine Nat.mul_le_mul_right _ ?_
      rw [Nat.succ_mul]
      omega
    _ ≤ 2 ^ (32 - o - k) * 2 ^ k * 2 ^ o :=
      Nat.mul_le_mul_right _ (Nat.mul_le_mul_right _ hhigh)

theorem mul_add_mod_div {m : Nat} (hm : 0 < m) (x y : Nat) : (x * m + y % m) / m = x := by
  rw [Nat.mul_comm, Nat.mul_add_div hm, Nat.div_eq_of_lt (Nat.mod_lt y hm), Nat.add_zero]

/-- The difference and sum of R71 replace the field alone. -/
theorem sub_field_add (w : Word) (k o f : Nat) :
    w.toNat - w.toNat / 2 ^ o % 2 ^ k * 2 ^ o + f * 2 ^ o =
      (w.toNat / 2 ^ o / 2 ^ k * 2 ^ k + f) * 2 ^ o + w.toNat % 2 ^ o := by
  have hsplit := word_split w k o
  rw [Nat.add_mul] at hsplit ⊢
  omega

/-- An insertion keeps what is above the field and below it (R71). -/
theorem insertUnsigned_toNat (w v : Word) (h : k + o ≤ 32) :
    (insertUnsigned w k o v h).toNat =
      (w.toNat / 2 ^ o / 2 ^ k * 2 ^ k + v.toNat % 2 ^ k) * 2 ^ o + w.toNat % 2 ^ o := by
  rw [insertUnsigned, extractUnsigned_toNat, sub_field_add, BitVec.toNat_ofNat]
  exact Nat.mod_eq_of_lt (replaced_lt w h (Nat.mod_lt _ (Nat.two_pow_pos k)))

theorem insertUnsigned_below (w v : Word) (h : k + o ≤ 32) :
    (insertUnsigned w k o v h).toNat % 2 ^ o = w.toNat % 2 ^ o := by
  rw [insertUnsigned_toNat, Nat.mul_add_mod', Nat.mod_mod]

/-- Bits `o` and up after an insertion. -/
theorem insertUnsigned_from (w v : Word) (h : k + o ≤ 32) :
    (insertUnsigned w k o v h).toNat / 2 ^ o =
      w.toNat / 2 ^ o / 2 ^ k * 2 ^ k + v.toNat % 2 ^ k := by
  rw [insertUnsigned_toNat, mul_add_mod_div (Nat.two_pow_pos o)]

theorem insertUnsigned_above (w v : Word) (h : k + o ≤ 32) :
    (insertUnsigned w k o v h).toNat / 2 ^ o / 2 ^ k = w.toNat / 2 ^ o / 2 ^ k := by
  rw [insertUnsigned_from, mul_add_mod_div (Nat.two_pow_pos k)]

/-- What was inserted can be extracted (R70, R71). -/
theorem extract_insert (w v : Word) (h : k + o ≤ 32) :
    (extractUnsigned (insertUnsigned w k o v h) k o h).toNat = v.toNat % 2 ^ k := by
  rw [extractUnsigned_toNat, insertUnsigned_from, Nat.mul_add_mod', Nat.mod_mod]

/-- Inserting what was extracted changes nothing. -/
theorem insert_extract (w : Word) (h : k + o ≤ 32) :
    insertUnsigned w k o (extractUnsigned w k o h) h = w := by
  refine BitVec.eq_of_toNat_eq ?_
  rw [insertUnsigned_toNat, extractUnsigned_toNat, Nat.mod_mod, ← word_split]

/-- An insertion leaves the bits outside the field. -/
theorem insertUnsigned_getLsbD (w v : Word) (h : k + o ≤ 32) {j : Nat} (hj : j < o ∨ o + k ≤ j) :
    (insertUnsigned w k o v h).getLsbD j = w.getLsbD j := by
  simp only [BitVec.getLsbD]
  rcases hj with hj | hj
  · have hbit (x : Nat) : x.testBit j = (x % 2 ^ o).testBit j := by
      rw [Nat.testBit_mod_two_pow, decide_eq_true hj, Bool.true_and]
    rw [hbit, insertUnsigned_below, ← hbit]
  · have hbit (x : Nat) : x.testBit j = (x / 2 ^ o / 2 ^ k).testBit (j - (o + k)) := by
      rw [Nat.div_div_eq_div_mul, ← Nat.pow_add, Nat.testBit_div_two_pow, Nat.sub_add_cancel hj]
    rw [hbit, insertUnsigned_above, ← hbit]

end Codec

end Sys2Proof
end

section
/-!
PROOFS. The statements about the encoding (30_encoding.md): the codec, the encoder, the decoder, and
the invalid opcodes.
-/

namespace Sys2Proof.Machine

/-! ## The codec -/

/-- Settles O6: R71's value is `insertUnsigned_toNat` read back through `sub_field_add`; a field of
width 0 has the single value 0, and one of width 32 is the whole word. -/
theorem codecExtractsAndInsertsFields : Obligations.CodecExtractsAndInsertsFields := by
  refine ⟨fun w v k o h => ⟨extractUnsigned_toNat w k o h, ?_, insert_extract w h,
    fun j => insertUnsigned_getLsbD w v h, extract_insert w v h⟩, fun w v o h => ⟨?_, ?_⟩,
    fun w v => ⟨?_, ?_⟩⟩
  · rw [insertUnsigned_toNat, extractUnsigned_toNat, sub_field_add]
  · refine BitVec.eq_of_toNat_eq ?_
    rw [extractUnsigned_toNat, Nat.pow_zero, Nat.mod_one]
    rfl
  · refine BitVec.eq_of_toNat_eq ?_
    rw [insertUnsigned_toNat, Nat.pow_zero, Nat.mod_one, Nat.div_one, Nat.mul_one, Nat.add_zero,
      Nat.div_add_mod']
  · refine BitVec.eq_of_toNat_eq ?_
    rw [extractUnsigned_toNat]
    omega
  · refine BitVec.eq_of_toNat_eq ?_
    rw [insertUnsigned_toNat]
    omega

/-! ## The encoder -/

/-- Settles O5: `encodeR_toNat` and `encodeI_toNat` at each opcode; CMOV's opcode adds 0. -/
theorem encodedWordsAreTheSpecsSums : Obligations.EncodedWordsAreTheSpecsSums := by
  refine ⟨fun a b c => ⟨?_, encodeR_toNat (by decide) a b c, encodeR_toNat (by decide) a b c,
    encodeR_toNat (by decide) a b c, encodeR_toNat (by decide) a b c,
    encodeR_toNat (by decide) a b c, encodeR_toNat (by decide) a b c⟩,
    encodeR_toNat (by decide) 0 0 0,
    fun b c => ⟨encodeR_toNat (by decide) 0 b c, encodeR_toNat (by decide) 0 b c⟩,
    fun c => ⟨encodeR_toNat (by decide) 0 0 c, encodeR_toNat (by decide) 0 0 c,
      encodeR_toNat (by decide) 0 0 c⟩, fun a imm h => encodeI_toNat a h⟩
  exact (encodeR_toNat (by decide) a b c).trans (by rw [Nat.zero_mul, Nat.zero_add])

/-! ## The decoder -/

/-- The word of an instruction holds what `decode_eq_ok` asks for: its opcode and its used fields
(R74). -/
theorem decode_encode {i : Instr} (h : i.wellFormed = true) : decode (encode i) = .ok i := by
  have hlt := usedFields_lt h
  have hdvd : 2 ^ lowBitsUsed i ∣ 2 ^ 28 := Nat.pow_dvd_pow 2 (lowBitsUsed_le i)
  have hle : 2 ^ lowBitsUsed i ≤ 2 ^ 28 := Nat.le_of_dvd (by decide) hdvd
  refine decode_eq_ok.2 ⟨h, ?_, ?_⟩
  · rw [encode_toNat h]
    omega
  · rw [encode_toNat h, Nat.add_mod, Nat.mod_eq_zero_of_dvd (hdvd.mul_left _), Nat.zero_add,
      Nat.mod_mod, Nat.mod_eq_of_lt hlt]

/-- Settles O1, by `decode_encode`. -/
theorem decodeInvertsEncode : Obligations.DecodeInvertsEncode := fun _ => decode_encode

/-- Settles O2: `decode_eq_ok` gives the opcode and the used fields of the word, which are all that
the encoding holds and all that decoding asks of another word. -/
theorem encodeInvertsDecodeOnUsedBits : Obligations.EncodeInvertsDecodeOnUsedBits := by
  intro w i h
  obtain ⟨hwf, hop, hlow⟩ := decode_eq_ok.1 h
  refine ⟨hwf, ?_, fun v hvop hvlow => decode_eq_ok.2 ⟨hwf, hvop.trans hop, hvlow.trans hlow⟩⟩
  rw [encode_toNat hwf, hop, hlow]

theorem exists_decode_of_opcode_lt {w : Word} (h : bitsOf w 31 28 < 14) : ∃ i, decode w = .ok i := by
  cases hd : decode w with
  | ok i => exact ⟨i, rfl⟩
  | error e => exact absurd (decode_eq_error.1 hd).1 (Nat.not_le.2 h)

/-- Settles O3: the opcode has four bits, and the fault decode raises is entered by the step. -/
theorem onlyOpcodesFourteenAndFifteenAreInvalid :
    Obligations.OnlyOpcodesFourteenAndFifteenAreInvalid := by
  refine ⟨fun w => ?_, fun w h => ?_, fun s w hs hf h => ?_⟩
  · have hlt : bitsOf w 31 28 < 16 := Nat.mod_lt _ (by decide)
    rw [decode_eq_error, and_iff_left rfl]
    omega
  · obtain ⟨i, hi⟩ := exists_decode_of_opcode_lt h
    obtain ⟨_, hop, _⟩ := decode_eq_ok.1 hi
    exact ⟨i, hi, by rw [bitsOf_opcode, hop]⟩
  · have hd : decode w = .error (.invalidOpcode w) := decode_eq_error.2 ⟨h, rfl⟩
    exact ⟨_, step_of_fetchInstr_error hs (fetchInstr_eq_error.2 (.inr ⟨w, w, hf, hd, rfl⟩)),
      raised_raise_closeLoad _ s⟩

end Sys2Proof.Machine
end

section
/-!
PROOFS. The statements about the engine (40_engine.md): fetch and dispatch (R81, R82), the waiting IN
(R87), and that a step always answers with a next state (R88).
-/

namespace Sys2Proof.Machine

/-! ## Every step answers with a next state -/

/-- An instruction that may raise either completes or enters the fault (R84, R88). -/
theorem exists_orRaise_eq_next {α : Type} (s : State) (r : Except Cause α) (done : α → State) :
    ∃ t, orRaise s r done = .next t := by
  cases r with
  | ok x => exact ⟨done x, rfl⟩
  | error c => exact ⟨raise c s, rfl⟩

theorem exists_execIn_eq_next (c : Reg) (s : State) : ∃ t, execIn c s = .next t := by
  cases hin : s.input with
  | nil => exact ⟨_, execIn_eq_next.2 (.inr ⟨hin, rfl⟩)⟩
  | cons x rest => exact ⟨_, execIn_eq_next.2 (.inl ⟨x, rest, hin, rfl⟩)⟩

/-- No instruction is refused: six end through `orRaise`, IN asks the host, and the others name the
state they leave. -/
theorem exists_exec_eq_next (i : Instr) (s : State) : ∃ t, exec i s = .next t := by
  cases i with
  | sload a b c => exact exists_orRaise_eq_next s _ _
  | sstore a b c => exact exists_orRaise_eq_next s _ _
  | div a b c => exact exists_orRaise_eq_next s _ _
  | map b c => exact exists_orRaise_eq_next s _ _
  | unmap c => exact exists_orRaise_eq_next s _ _
  | loadp b c => exact exists_orRaise_eq_next s _ _
  | inp c => exact exists_execIn_eq_next c s
  | cmov | add | mul | nand | halt | out | loadv => exact ⟨_, rfl⟩

/-- Settles O15: a terminal state stays as it is, a fetch or decode that raises enters the fault, and
a fetched instruction answers by `exists_exec_eq_next`. -/
theorem everyStepAnswersANextState : Obligations.EveryStepAnswersANextState := by
  intro s
  by_cases hs : s.status = .running
  · cases hf : fetchInstr s with
    | ok i => rw [step_of_fetchInstr hs hf]; exact exists_exec_eq_next i _
    | error c => exact ⟨_, step_of_fetchInstr_error hs hf⟩
  · exact ⟨s, step_of_terminal hs⟩

/-! ## Fetch and dispatch -/

/-- Settles O11: `fetchWord` is the read at `0:pc`, so fetch and decode give the instruction. -/
theorem stepRunsTheDecodedInstruction : Obligations.StepRunsTheDecodedInstruction :=
  fun _ w _ hs hw hd => ⟨step_of_fetchInstr hs (fetchInstr_eq_ok.2 ⟨w, hw, hd⟩), rfl⟩

/-- Settles O12, by `step_past_end`. -/
theorem fetchPastTheEndFaults : Obligations.FetchPastTheEndFaults := fun _ _ => step_past_end

/-! ## The waiting IN -/

/-- A step at an unanswered IN only closes the load interface: `retry` undoes the advance (R87). -/
theorem step_unanswered_in {c : Reg} {s : State} (hs : s.status = .running)
    (hf : fetchInstr s = .ok (.inp c)) (hin : s.input = []) : step s = .next s.closeLoad := by
  rw [step_of_fetchInstr hs hf]
  exact execIn_eq_next.2 (.inr ⟨hin, s.closeLoad.retry_advance.symm⟩)

/-- Settles O58, by `step_unanswered_in`; closing a closed interface changes nothing. -/
theorem unansweredInChangesNothing : Obligations.UnansweredInChangesNothing := by
  intro c s hs hf hin
  have h : step s = .next s.closeLoad := step_unanswered_in hs hf hin
  exact ⟨h, fun hl => by rw [h, s.closeLoad_of_closed hl]⟩

end Sys2Proof.Machine
end

section
/-!
SUPPORT. Laws the statements about the ALU rest on (41_alu.md): the words of a three-register
instruction, the frame of an instruction that writes one register, and the ALU functions as the
operations of `BitVec` and `Nat`.
-/

namespace Sys2Proof.Machine

/-! ## The register fields of a word -/

/-- `w[lo+2:lo]` is the decoder's register field (30_encoding.md R62, R63). -/
theorem regField_eq_regAt (w : Word) (lo : Nat) (h : 3 + lo ≤ 32) : regField w lo h = regAt w lo := by
  have hwidth : lo + 2 + 1 - lo = 3 := by omega
  rw [Fin.ext_iff, regField_val, regAt, bitsOf, hwidth, Fin.val_ofNat]
  exact (Nat.mod_mod _ 8).symm

/-- A mnemonic whose instructions have opcode `op` and use the fields A, B and C alone is what every
word with opcode `op` decodes to, whatever its bits 27 to 9 (R66, R68). -/
theorem decodesThree_of_usedFields {op : Nat} {mk : Reg → Reg → Reg → Instr}
    (hmk : ∀ a b c, (mk a b c).wellFormed = true ∧ (mk a b c).opcode = op ∧
      lowBitsUsed (mk a b c) = 9 ∧ usedFields (mk a b c) = a.val * 64 + b.val * 8 + c.val) :
    DecodesThree op mk := by
  intro w hw
  obtain ⟨hwf, hop, hbits, hused⟩ := hmk (regAt w 6) (regAt w 3) (regAt w 0)
  have hfields := regFields_abc.1
    ⟨regField_eq_regAt w 6 (by decide), regField_eq_regAt w 3 (by decide),
      regField_eq_regAt w 0 (by decide)⟩
  rw [bitsOf_opcode] at hw
  exact decode_eq_ok.2 ⟨hwf, hw.trans hop.symm, by rw [hbits, hused, hfields]⟩

/-! ## The frame of an instruction that writes one register -/

theorem onlyRegister_writeReg (s : State) (a : Reg) (v : Word) : OnlyRegister a s (s.writeReg a v) :=
  ⟨fun q hq => s.readReg_writeReg_other a q v hq, rfl, ⟨rfl, rfl⟩,
    ⟨fun _ _ => rfl, fun _ => rfl, rfl, rfl⟩, ⟨rfl, rfl⟩, rfl, rfl, rfl⟩

/-- An instruction that ends by writing `v` to `a` leaves `v` there and all else as it was. -/
theorem exists_next_of_exec_writeReg {i : Instr} {s : State} {a : Reg} {v : Word}
    (h : exec i s = .next (s.writeReg a v)) :
    ∃ t, exec i s = .next t ∧ t.readReg a = v ∧ OnlyRegister a s t :=
  ⟨_, h, s.readReg_writeReg_same a v, onlyRegister_writeReg s a v⟩

/-! ## The ALU functions -/

section Alu
variable (v w : Word)

theorem aluAdd_eq : aluAdd v w = v + w := (BitVec.add_def v w).symm

/-- NAND of a word with itself is its complement (R94). -/
theorem aluNand_self : aluNand v v = ~~~v := by rw [aluNand, BitVec.and_self]

/-- A quotient of two words is a word: division does not overflow (R93). -/
theorem quotient_toNat : (BitVec.ofNat 32 (v.toNat / w.toNat)).toNat = v.toNat / w.toNat := by
  rw [BitVec.toNat_ofNat]
  exact Nat.mod_eq_of_lt ((Nat.div_le_self _ _).trans_lt v.isLt)

theorem aluDiv_of_ne_zero (h : w ≠ 0) : aluDiv v w = .ok (BitVec.ofNat 32 (v.toNat / w.toNat)) :=
  if_neg h

/-- The quotient times the divisor stays within the dividend, so the product does not wrap (R96). -/
theorem aluMul_quotient_toNat :
    (aluMul (BitVec.ofNat 32 (v.toNat / w.toNat)) w).toNat = v.toNat / w.toNat * w.toNat := by
  rw [aluMul, quotient_toNat, BitVec.toNat_ofNat]
  exact Nat.mod_eq_of_lt ((Nat.div_mul_le_self _ _).trans_lt v.isLt)

end Alu

/-- The immediate keeps its low 25 bits (30_encoding.md R65). -/
theorem zextImm_toNat (imm : Word) : (zextImm imm).toNat = imm.toNat % 2 ^ 25 := by
  rw [zextImm, extractUnsigned_toNat, Nat.pow_zero, Nat.div_one]

end Sys2Proof.Machine
end

section
/-!
PROOFS. The statements about the ALU (41_alu.md): the six instructions and the laws of the arithmetic.
-/

namespace Sys2Proof.Machine

/-! ## Division -/

/-- Settles O35: the quotient is a word, and the two inequalities are those of `Nat` division. -/
theorem divWritesTheUnsignedQuotient : Obligations.DivWritesTheUnsignedQuotient := by
  refine ⟨fun a b c s hc => ?_, decodesThree_of_usedFields fun _ _ _ => ⟨rfl, rfl, rfl, rfl⟩⟩
  obtain ⟨t, ht, hq, hframe⟩ := exists_next_of_exec_writeReg (i := .div a b c)
    (execDiv_eq_next.2 (.inl ⟨hc, rfl⟩))
  refine ⟨t, ht, ?_, ?_, hframe⟩
  · rw [hq, quotient_toNat]
    exact Nat.div_mul_le_self _ _
  · rw [hq, quotient_toNat, ← Nat.div_lt_iff_lt_mul (BitVec.toNat_pos_of_ne_zero hc)]
    exact Nat.lt_succ_self _

/-- Settles O36: the second case of `execDiv_eq_next`. -/
theorem divByZeroFaults : Obligations.DivByZeroFaults := fun _ _ _ s hc =>
  ⟨_, execDiv_eq_next.2 (.inr ⟨hc, rfl⟩), raised_raise .divideByZero s⟩

/-! ## The laws of the arithmetic -/

/-- `v + ~w + 1` is the difference (R96): the instruction set's subtraction. -/
theorem aluAdd_nand_one (v w : Word) : aluAdd (aluAdd v (aluNand w w)) 1 = v - w := by
  rw [aluAdd_eq, aluAdd_eq, aluNand_self, BitVec.add_assoc, BitVec.sub_eq_add_neg,
    BitVec.neg_eq_not_add]
  rfl

/-- The quotient's remainder is less than the divisor (R96). -/
theorem sub_aluMul_quotient_lt (v : Word) {w : Word} (h : w ≠ 0) :
    v.toNat - (aluMul (BitVec.ofNat 32 (v.toNat / w.toNat)) w).toNat < w.toNat := by
  rw [aluMul_quotient_toNat, Nat.mul_comm, ← Nat.mod_eq_sub]
  exact Nat.mod_lt _ (BitVec.toNat_pos_of_ne_zero h)

/-- Settles O39: addition is that of `BitVec 32`, multiplication commutes already on `Nat`, and the
quotient's product does not wrap. -/
theorem arithmeticLawsOfTheAlu : Obligations.ArithmeticLawsOfTheAlu := by
  refine fun v w => ⟨?_, ?_, ?_, aluAdd_nand_one v w, fun hw =>
    ⟨_, aluDiv_of_ne_zero v w hw, ?_, sub_aluMul_quotient_lt v hw⟩⟩
  · rw [aluAdd_eq, aluAdd_eq, BitVec.add_comm]
  · rw [aluMul, aluMul, Nat.mul_comm]
  · rw [aluAdd_eq, aluNand_self, BitVec.add_not_self]
    rfl
  · rw [aluMul_quotient_toNat]
    exact Nat.div_mul_le_self _ _

/-! ## The instructions that never fault -/

/-- Settles O32, by the two cases of `execCmov_eq_next`. -/
theorem cmovMovesWhenConditionIsNotZero : Obligations.CmovMovesWhenConditionIsNotZero :=
  ⟨fun _ _ _ _ hc => exists_next_of_exec_writeReg (execCmov_eq_next.2 (.inl ⟨hc, rfl⟩)),
    fun _ _ _ _ hc => execCmov_eq_next.2 (.inr ⟨hc, rfl⟩),
    decodesThree_of_usedFields fun _ _ _ => ⟨rfl, rfl, rfl, rfl⟩⟩

/-- Settles O33: `aluAdd` is the word of the exact sum. -/
theorem addWritesTheSumModuloWord : Obligations.AddWritesTheSumModuloWord := by
  refine ⟨fun a b c s => ?_, decodesThree_of_usedFields fun _ _ _ => ⟨rfl, rfl, rfl, rfl⟩⟩
  obtain ⟨t, ht, hsum, hframe⟩ := exists_next_of_exec_writeReg (i := .add a b c) (s := s) rfl
  exact ⟨t, ht, by rw [hsum, aluAdd, BitVec.toNat_ofNat], hframe⟩

/-- Settles O34: `aluMul` is the word of the exact product. -/
theorem mulWritesTheProductModuloWord : Obligations.MulWritesTheProductModuloWord := by
  refine ⟨fun a b c s => ?_, decodesThree_of_usedFields fun _ _ _ => ⟨rfl, rfl, rfl, rfl⟩⟩
  obtain ⟨t, ht, hprod, hframe⟩ := exists_next_of_exec_writeReg (i := .mul a b c) (s := s) rfl
  exact ⟨t, ht, by rw [hprod, aluMul, BitVec.toNat_ofNat], hframe⟩

/-- Settles O37: a complement inverts each of the 32 bits, which is the difference from the word of
ones. -/
theorem nandWritesTheComplementOfAnd : Obligations.NandWritesTheComplementOfAnd := by
  refine ⟨fun a b c s => ?_, decodesThree_of_usedFields fun _ _ _ => ⟨rfl, rfl, rfl, rfl⟩⟩
  obtain ⟨t, ht, hnand, hframe⟩ := exists_next_of_exec_writeReg (i := .nand a b c) (s := s) rfl
  refine ⟨t, ht, fun j hj => ?_, ?_, hframe⟩
  · rw [hnand, aluNand, BitVec.getLsbD_not, BitVec.getLsbD_and, decide_eq_true hj, Bool.true_and]
  · rw [hnand, aluNand, BitVec.toNat_not]

/-- Settles O38: `zextImm_toNat` for the value; a word's fields A and immediate are all its bits below
the opcode. -/
theorem loadvWritesTheZeroExtendedImmediate : Obligations.LoadvWritesTheZeroExtendedImmediate := by
  refine ⟨fun a imm s => ?_, fun w hw => ⟨extractUnsigned w 25 0, ?_, extractUnsigned_toNat w 25 0 _⟩⟩
  · obtain ⟨t, ht, himm, hframe⟩ := exists_next_of_exec_writeReg (i := .loadv a imm) (s := s) rfl
    exact ⟨t, ht, by rw [himm, zextImm_toNat], hframe⟩
  · obtain ⟨himm, hlow⟩ := immFields.1 ⟨regField_eq_regAt w 25 (by decide), rfl⟩
    rw [bitsOf_opcode] at hw
    exact decode_eq_ok.2 ⟨wellFormed_loadv.2 himm, hw, hlow⟩

end Sys2Proof.Machine
end

section
/-!
SUPPORT. Laws the statements about segment access rest on (42_segment_access.md): what a write keeps
(20_memory.md R38), an instruction that changes the store alone, and the two faults of an access (R36).
-/

namespace Sys2Proof.Machine

/-! ## What a write keeps -/

section Write
variable {st st' : Store} {id off v : Word}

theorem memWrite_free (h : memWrite st id off v = .ok st') : st'.free = st.free := by
  obtain ⟨_, _, _, rfl⟩ := memWrite_eq_ok.1 h
  rfl

theorem memWrite_slot_other (h : memWrite st id off v = .ok st') {j : Word} (hj : j ≠ id) :
    st'.slot j = st.slot j := by
  obtain ⟨_, _, _, rfl⟩ := memWrite_eq_ok.1 h
  exact st.slot_setSlot_other hj _

/-- The segment written to keeps its length (10_state.md R17). -/
theorem memWrite_segment_len (h : memWrite st id off v = .ok st') {seg : Segment}
    (hseg : st.segment id = some seg) : ∃ seg', st'.segment id = some seg' ∧ seg'.len = seg.len := by
  obtain ⟨g, hg, _, rfl⟩ := memWrite_eq_ok.1 h
  cases hseg.symm.trans hg
  exact ⟨_, st.segment_setSlot_active id _, seg.write_len off v⟩

end Write

theorem onlyStore_setStore (s : State) (st : Store) : OnlyStore s (s.setStore st) :=
  ⟨fun _ => rfl, rfl, ⟨rfl, rfl⟩, ⟨rfl, rfl⟩, rfl, rfl, rfl⟩

/-! ## The two faults of an access -/

theorem exists_raised_of_raises {i : Instr} {s : State} {d : Cause} (h : Raises s d i) :
    ∃ t, exec i s = .next t ∧ Raised d s t :=
  ⟨_, exec_eq_next.2 (.inr ⟨d, h, rfl⟩), raised_raise d s⟩

/-- The two tests of every access, said once for SLOAD and SSTORE: `hi` holds of an instruction that
raises what the address decoder raises for its address `id:off` (20_memory.md R36). -/
theorem raised_outside_active_range {i : Instr} {s : State} {id off : Word}
    (hi : ∀ d, s.store.locate id off = .error d → Raises s d i) :
    (s.store.segment id = none → ∃ t, exec i s = .next t ∧ Raised (.inactiveSegment id) s t) ∧
    ∀ seg, s.store.segment id = some seg → seg.len.toNat ≤ off.toNat →
      ∃ t, exec i s = .next t ∧ Raised (.offsetOutOfRange id off) s t :=
  ⟨fun hn => exists_raised_of_raises (hi _ (locate_eq_error.2 (.inl ⟨hn, rfl⟩))),
    fun seg hseg hlen =>
      exists_raised_of_raises (hi _ (locate_eq_error.2 (.inr ⟨seg, hseg, hlen, rfl⟩)))⟩

end Sys2Proof.Machine
end

section
/-!
PROOFS. The statements about segment access (42_segment_access.md): SLOAD and SSTORE in range, and
their faults outside.
-/

namespace Sys2Proof.Machine

/-! ## In range -/

/-- Settles O42: the write in range succeeds; every part is what a write leaves or keeps. -/
theorem sstoreWritesOnlyTheAddressedWord : Obligations.SstoreWritesOnlyTheAddressedWord := by
  refine ⟨fun a b c s seg hseg hlt => ?_,
    decodesThree_of_usedFields fun _ _ _ => ⟨rfl, rfl, rfl, rfl⟩⟩
  obtain ⟨st, hst⟩ : ∃ st, memWrite s.store (s.readReg a) (s.readReg b) (s.readReg c) = .ok st :=
    ⟨_, memWrite_eq_ok.2 ⟨seg, hseg, hlt, rfl⟩⟩
  exact ⟨s.setStore st, execSstore_eq_next.2 (.inl ⟨st, hst, rfl⟩),
    memRead_memWrite_same hst,
    fun _ _ hne => memRead_memWrite_other hst hne,
    fun _ hid => memWrite_slot_other hst hid,
    memWrite_segment_len hst hseg,
    memWrite_free hst, memWrite_nextId hst, onlyStore_setStore s st⟩

/-- Settles O40: the read in range answers the addressed word, which SLOAD writes to its register. -/
theorem sloadWritesTheAddressedWord : Obligations.SloadWritesTheAddressedWord := by
  refine ⟨fun a b c s seg hseg hlt => ?_,
    decodesThree_of_usedFields fun _ _ _ => ⟨rfl, rfl, rfl, rfl⟩⟩
  have hread : memRead s.store (s.readReg b) (s.readReg c) = .ok (seg.read (s.readReg c)) :=
    memRead_eq_ok.2 ⟨seg, hseg, hlt, rfl⟩
  obtain ⟨t, ht, hv, hframe⟩ := exists_next_of_exec_writeReg (i := .sload a b c)
    (execSload_eq_next.2 (.inl ⟨_, hread, rfl⟩))
  exact ⟨t, ht, hv, hv ▸ hread, hframe⟩

/-! ## Outside -/

/-- Settles O41: SLOAD raises what its read raises. -/
theorem sloadFaultsOutsideActiveRange : Obligations.SloadFaultsOutsideActiveRange :=
  fun _ _ _ _ => raised_outside_active_range fun _ => memRead_eq_error.2

/-- Settles O43: SSTORE raises what its write raises. -/
theorem sstoreFaultsOutsideActiveRange : Obligations.SstoreFaultsOutsideActiveRange :=
  fun _ _ _ _ => raised_outside_active_range fun _ => memWrite_eq_error.2

end Sys2Proof.Machine
end

section
/-!
SUPPORT. Laws the statements about segment management rest on (43_segment_management.md): the words of
an instruction with one or two registers, the table after an allocation and a deallocation (20_memory.md
R39, R41), and what MAP leaves for either way of choosing its identifier.
-/

namespace Sys2Proof.Machine

/-! ## The words of an instruction with one or two registers -/

/-- A word with the opcode of `i` and its used fields is `i`, whatever the bits between (R66, R68). -/
theorem decode_eq_ok_of_bitsOf {w : Word} {i : Instr} (hwf : i.wellFormed = true)
    (hop : bitsOf w 31 28 = i.opcode) (hlow : w.toNat % 2 ^ lowBitsUsed i = usedFields i) :
    decode w = .ok i :=
  decode_eq_ok.2 ⟨hwf, (bitsOf_opcode w).symm.trans hop, hlow⟩

/-- `decodesThree_of_usedFields` for the fields B and C alone: bits 27 to 6 are ignored. -/
theorem decodesTwo_of_usedFields {op : Nat} {mk : Reg → Reg → Instr}
    (hmk : ∀ b c, (mk b c).wellFormed = true ∧ (mk b c).opcode = op ∧
      lowBitsUsed (mk b c) = 6 ∧ usedFields (mk b c) = b.val * 8 + c.val) : DecodesTwo op mk := by
  intro w hw
  obtain ⟨hwf, hop, hbits, hused⟩ := hmk (regAt w 3) (regAt w 0)
  have hfields := regFields_bc.1
    ⟨regField_eq_regAt w 3 (by decide), regField_eq_regAt w 0 (by decide)⟩
  exact decode_eq_ok_of_bitsOf hwf (hw.trans hop.symm) (by rw [hbits, hused, hfields])

/-- `decodesThree_of_usedFields` for the field C alone: bits 27 to 3 are ignored. -/
theorem decodesOne_of_usedFields {op : Nat} {mk : Reg → Instr}
    (hmk : ∀ c, (mk c).wellFormed = true ∧ (mk c).opcode = op ∧
      lowBitsUsed (mk c) = 3 ∧ usedFields (mk c) = c.val) : DecodesOne op mk := by
  intro w hw
  obtain ⟨hwf, hop, hbits, hused⟩ := hmk (regAt w 0)
  have hfield := regField_c.1 (regField_eq_regAt w 0 (by decide))
  exact decode_eq_ok_of_bitsOf hwf (hw.trans hop.symm) (by rw [hbits, hused, hfield])

/-! ## Reads of a segment just freed or just made -/

section Table
variable {pool : Option Nat} {st st' : Store} {id n : Word}

/-- Every access to an identifier that is not active faults as such, whatever the offset (R36). -/
theorem memRead_of_inactive (h : st.segment id = none) (off : Word) :
    memRead st id off = .error (.inactiveSegment id) :=
  memRead_eq_error.2 (locate_eq_error.2 (.inl ⟨h, rfl⟩))

theorem memRead_of_zeros (h : st.segment id = some (Segment.zeros n)) {off : Word}
    (hoff : off.toNat < n.toNat) : memRead st id off = .ok 0 :=
  memRead_eq_ok.2 ⟨_, h, hoff, rfl⟩

/-! ## The table after a deallocation and an allocation -/

theorem segUnmap_slot_same (h : segUnmap st id = .ok st') : st'.slot id = some .tombstone := by
  obtain ⟨_, _, rfl⟩ := segUnmap_eq_ok.1 h
  exact st.slot_setSlot_same id _

theorem segUnmap_slot_other (h : segUnmap st id = .ok st') {j : Word} (hj : j ≠ id) :
    st'.slot j = st.slot j := by
  obtain ⟨_, _, rfl⟩ := segUnmap_eq_ok.1 h
  exact st.slot_setSlot_other hj _

theorem segMap_slot_other (h : segMap pool st n = .ok (id, st')) {j : Word} (hj : j ≠ id) :
    st'.slot j = st.slot j := by
  obtain ⟨st1, hid, _, rfl⟩ := segMap_eq_ok.1 h
  rw [st1.slot_setSlot_other hj, Store.slot, newId_table hid, Store.slot]

end Table

/-! ## What MAP leaves -/

/-- A completed allocation, its identifier then written to `b`, leaves what MAP is to leave (R105). -/
theorem mapped_of_segMap {s : State} {st : Store} {id n : Word} (b : Reg)
    (h : segMap s.poolWords s.store n = .ok (id, st)) :
    Mapped b id n s ((s.setStore st).writeReg b id) :=
  ⟨State.readReg_writeReg_same _ _ _, fun q hq => State.readReg_writeReg_other _ b q id hq, rfl,
    ⟨rfl, rfl⟩, ⟨_, segMap_segment_same h, Segment.zeros_len n⟩,
    fun _ hoff => memRead_of_zeros (segMap_segment_same h) hoff,
    fun _ hj => segMap_slot_other h hj,
    fun _ off hj => memRead_congr (segMap_slot_other h hj) off,
    ⟨rfl, rfl⟩, rfl, rfl, rfl⟩

/-- MAP completes when there is an identifier and the words fit; free list and counter are as the
choice of the identifier leaves them (R40, R53). -/
theorem exists_mapped_of_newId {s : State} {st : Store} {id : Word} (b c : Reg)
    (hid : newId s.store = some (id, st))
    (hfits : fitsPool s.poolWords (s.store.wordsInUse + (s.readReg c).toNat) = true) :
    ∃ t, exec (.map b c) s = .next t ∧ Mapped b id (s.readReg c) s t ∧
      t.store.free = st.free ∧ t.store.nextId = st.nextId := by
  have hmap := segMap_eq_ok.2 ⟨st, hid, hfits, rfl⟩
  exact ⟨_, exec_eq_next.2 (.inl ⟨id, _, hmap, rfl⟩), mapped_of_segMap b hmap, rfl, rfl⟩

end Sys2Proof.Machine
end

section
/-!
PROOFS. The statements about segment management (43_segment_management.md): MAP, UNMAP and the faults
of UNMAP.
-/

namespace Sys2Proof.Machine

/-- Settles O45: the two cases are the two ways `newId` chooses an identifier, the oldest freed one and
the next unused one. -/
theorem mapAllocatesAZeroedSegment : Obligations.MapAllocatesAZeroedSegment := by
  refine ⟨fun b c s id rest hfree hfits => ?_, fun b c s hfree hlt hfits => ?_,
    decodesTwo_of_usedFields fun _ _ => ⟨rfl, rfl, rfl, rfl⟩⟩
  · exact exists_mapped_of_newId b c (newId_eq_some.2 (.inl ⟨rest, hfree, rfl⟩)) hfits
  · obtain ⟨t, ht, hmapped, hfree', hnext⟩ := exists_mapped_of_newId b c
      (newId_eq_some.2 (.inr ⟨hfree, hlt, rfl, rfl⟩)) hfits
    exact ⟨t, ht, hmapped, hfree'.trans hfree, hnext⟩

/-- Settles O48: the deallocation of an active identifier other than 0 succeeds; every part is what it
leaves or keeps. -/
theorem unmapFreesTheSegment : Obligations.UnmapFreesTheSegment := by
  refine ⟨fun c s seg h0 hseg => ?_, decodesOne_of_usedFields fun _ => ⟨rfl, rfl, rfl, rfl⟩⟩
  obtain ⟨st, hst⟩ : ∃ st, segUnmap s.store (s.readReg c) = .ok st :=
    ⟨_, segUnmap_eq_ok.2 ⟨h0, ⟨seg, hseg⟩, rfl⟩⟩
  exact ⟨s.setStore st, execUnmap_eq_next.2 (.inl ⟨st, hst, rfl⟩),
    segUnmap_slot_same hst,
    memRead_of_inactive (segUnmap_segment_same hst),
    fun _ hid => segUnmap_slot_other hst hid,
    fun _ off hid => memRead_congr (segUnmap_slot_other hst hid) off,
    segUnmap_free hst, segUnmap_nextId hst, onlyStore_setStore s st⟩

/-- Settles O49: the two conditions are those under which `segUnmap` raises. -/
theorem unmapFaultsOnZeroAndInactive : Obligations.UnmapFaultsOnZeroAndInactive := fun c _ =>
  ⟨fun h0 => exists_raised_of_raises (i := .unmap c) (segUnmap_eq_error.2 (.inl ⟨h0, rfl⟩)),
    fun h0 hseg =>
      exists_raised_of_raises (i := .unmap c) (segUnmap_eq_error.2 (.inr ⟨h0, hseg, rfl⟩))⟩

end Sys2Proof.Machine
end

section
/-!
SUPPORT. Laws the statements about control rest on (44_control.md): a state whose store is as it was,
what replacing segment 0 keeps (20_memory.md R42, R53), and a LOADP that completes.
-/

namespace Sys2Proof.Machine

theorem storeUnchanged_of_store_eq {s t : State} (h : t.store = s.store) : StoreUnchanged s t :=
  ⟨fun id off => congrArg (memRead · id off) h, fun id => congrArg (Store.slot · id) h,
    congrArg Store.free h, congrArg Store.nextId h⟩

/-! ## The table after the replacement of segment 0 -/

section Replace
variable {pool : Option Nat} {st st' : Store} {src : Word}

theorem segReplaceZero_zero {seg : Segment} (h : st.segment 0 = some seg) :
    segReplaceZero pool st 0 = .ok st :=
  segReplaceZero_eq_ok.2 ⟨seg, h, .inl ⟨rfl, rfl⟩⟩

theorem segReplaceZero_slot_other (h : segReplaceZero pool st src = .ok st') {j : Word}
    (hj : j ≠ 0) : st'.slot j = st.slot j := by
  obtain ⟨seg, _, ⟨_, rfl⟩ | ⟨_, _, rfl⟩⟩ := segReplaceZero_eq_ok.1 h
  · rfl
  · exact st.slot_setSlot_other hj (.active seg)

theorem segReplaceZero_free (h : segReplaceZero pool st src = .ok st') : st'.free = st.free := by
  obtain ⟨_, _, ⟨_, rfl⟩ | ⟨_, _, rfl⟩⟩ := segReplaceZero_eq_ok.1 h <;> rfl

/-- In range, a read of the new segment 0 answers what a read of the source answered. -/
theorem segReplaceZero_memRead_zero (h : segReplaceZero pool st src = .ok st') {seg : Segment}
    (hseg : st.segment src = some seg) {off : Word} (hoff : off.toNat < seg.len.toNat) :
    memRead st' 0 off = memRead st src off := by
  have hread : memRead st src off = .ok (seg.read off) := memRead_eq_ok.2 ⟨seg, hseg, hoff, rfl⟩
  exact ((memRead_eq_ok_congr (segReplaceZero_segment_zero h)).2 hread).trans hread.symm

end Replace

/-! ## LOADP -/

/-- A LOADP whose replacement answers jumps and takes the new store; nothing else changes (R111). -/
theorem exists_next_of_segReplaceZero {s : State} {st : Store} {b : Reg} (c : Reg)
    (h : segReplaceZero s.poolWords s.store (s.readReg b) = .ok st) :
    ∃ t, exec (.loadp b c) s = .next t ∧ t.pc = s.readReg c ∧ t.store = st ∧
      RegistersUnchanged s t ∧ StatusUnchanged s t ∧ ChannelsUnchanged s t ∧ ModelUnchanged s t :=
  ⟨_, execLoadp_eq_next.2 (.inl ⟨st, h, rfl⟩), rfl, rfl, fun _ => rfl, ⟨rfl, rfl⟩, ⟨rfl, rfl⟩,
    rfl, rfl, rfl⟩

end Sys2Proof.Machine
end

section
/-!
PROOFS. The statements about control (44_control.md): LOADP from another segment and from segment 0,
its faults, and HALT.
-/

namespace Sys2Proof.Machine

/-! ## LOADP -/

/-- Settles O52: the replacement within the pool succeeds; every part is what it leaves or keeps. -/
theorem loadpCopiesTheSegmentAndJumps : Obligations.LoadpCopiesTheSegmentAndJumps := by
  refine ⟨fun b c s seg h0 hseg hfits => ?_,
    decodesTwo_of_usedFields fun _ _ => ⟨rfl, rfl, rfl, rfl⟩⟩
  obtain ⟨st, hst⟩ : ∃ st, segReplaceZero s.poolWords s.store (s.readReg b) = .ok st :=
    ⟨_, segReplaceZero_eq_ok.2 ⟨seg, hseg, .inr ⟨h0, hfits, rfl⟩⟩⟩
  obtain ⟨t, ht, hpc, rfl, hframe⟩ := exists_next_of_segReplaceZero c hst
  exact ⟨t, ht, hpc,
    ⟨seg, (segReplaceZero_segment_zero hst).trans hseg, rfl⟩,
    fun _ hoff => segReplaceZero_memRead_zero hst hseg hoff,
    fun _ hid => segReplaceZero_slot_other hst hid,
    fun _ off hid => memRead_congr (segReplaceZero_slot_other hst hid) off,
    segReplaceZero_free hst, segReplaceZero_nextId hst, hframe⟩

/-- Settles O53: with source 0 the replacement answers the store as it was, under any pool. -/
theorem loadpFromZeroIsThePlainJump : Obligations.LoadpFromZeroIsThePlainJump := by
  intro b c s seg h0 hseg
  obtain ⟨t, ht, hpc, hstore, hframe⟩ :=
    exists_next_of_segReplaceZero c (h0 ▸ segReplaceZero_zero hseg)
  exact ⟨t, ht, hpc, storeUnchanged_of_store_eq hstore, hframe⟩

/-- Settles O54: the two conditions are those under which `segReplaceZero` raises. -/
theorem loadpFaultsOnInactiveOrExhausted : Obligations.LoadpFaultsOnInactiveOrExhausted :=
  fun b c _ =>
    ⟨fun hseg =>
      exists_raised_of_raises (i := .loadp b c) (segReplaceZero_eq_error.2 (.inl ⟨hseg, rfl⟩)),
    fun seg h0 hseg hfits =>
      exists_raised_of_raises (i := .loadp b c)
        (segReplaceZero_eq_error.2 (.inr ⟨seg, hseg, h0, hfits, rfl⟩))⟩

/-! ## HALT -/

/-- Settles O51: HALT writes the status alone, a halted machine does not step, and the word of HALT
has no used fields. -/
theorem haltStopsAndChangesNothingElse : Obligations.HaltStopsAndChangesNothingElse := by
  refine ⟨fun s => ?_, fun w hw => decode_eq_ok_of_bitsOf rfl hw (Nat.mod_one _)⟩
  have hstep : step s.halt = .next s.halt := step_of_terminal fun h => nomatch h
  exact ⟨s.halt, rfl, s.halt_status, s.halt_faultCause, s.halt_readReg, s.halt_pc,
    storeUnchanged_of_store_eq s.halt_store, ⟨rfl, rfl⟩, ⟨rfl, rfl, rfl⟩, hstep, rfl⟩

end Sys2Proof.Machine
end

section
/-!
SUPPORT. Laws the statements about input and output rest on (45_io.md): the word of an answer, an OUT
of either kind of value, and an IN that is answered.
-/

namespace Sys2Proof.Machine

/-! ## The word of an answer -/

/-- A byte is zero-extended: no bit is lost and none is added (R116). -/
theorem answerWord_byte_toNat (b : Byte) : (answerWord (.byte b)).toNat = b.toNat :=
  BitVec.toNat_setWidth_of_le (by decide)

theorem answerWord_eos : answerWord .eos = 0xFFFFFFFF := rfl

/-! ## OUT -/

/-- A byte sent leaves all but the output as it was (R115). -/
theorem emit_frame (s : State) (b : Byte) :
    (s.emit b).input = s.input ∧ RegistersUnchanged s (s.emit b) ∧ (s.emit b).pc = s.pc ∧
      StatusUnchanged s (s.emit b) ∧ StoreUnchanged s (s.emit b) ∧ ModelUnchanged s (s.emit b) :=
  ⟨s.emit_input b, (s.emit_readReg · b), s.emit_pc b, ⟨s.emit_status b, s.emit_faultCause b⟩,
    storeUnchanged_of_store_eq (s.emit_store b),
    ⟨s.emit_loadOpen b, s.emit_poolWords b, s.emit_freeDraws b⟩⟩

theorem exec_out_of_le {c : Reg} {s : State} (h : (s.readReg c).toNat ≤ 255) :
    exec (.out c) s = .next (s.emit (lowByte (s.readReg c))) :=
  execOut_eq_next.2 (.inl ⟨h, rfl⟩)

theorem exec_out_of_gt {c : Reg} {s : State} (h : 255 < (s.readReg c).toNat) :
    exec (.out c) s = .next s :=
  execOut_eq_next.2 (.inr ⟨h, rfl⟩)

/-! ## IN -/

theorem exec_inp_of_answer {c : Reg} {s : State} {x : Answer} {rest : List Answer}
    (h : s.input = x :: rest) :
    exec (.inp c) s = .next ((s.setInput rest).writeReg c (answerWord x)) :=
  execIn_eq_next.2 (.inl ⟨x, rest, h, rfl⟩)

end Sys2Proof.Machine
end

section
/-!
PROOFS. The statements about input and output (45_io.md): OUT of a byte and of a larger value, and an
IN the host has answered.
-/

namespace Sys2Proof.Machine

/-! ## OUT -/

/-- Settles O56: up to 255 the low byte is the whole value, and sending it is `emit_frame`. -/
theorem outAppendsTheByteOrDiscards : Obligations.OutAppendsTheByteOrDiscards := by
  refine ⟨fun c s hle => ?_, fun _ _ => exec_out_of_gt,
    decodesOne_of_usedFields fun _ => ⟨rfl, rfl, rfl, rfl⟩⟩
  exact ⟨_, exec_out_of_le hle, ⟨_, lowByte_toNat hle, s.emit_output _⟩, emit_frame s _⟩

/-! ## IN -/

/-- Settles O57: taking the answer writes the input alone, and `onlyRegister_writeReg` is the frame of
the write that follows. -/
theorem inWritesTheAnswer : Obligations.InWritesTheAnswer := by
  refine ⟨fun c s x rest hin => ?_, decodesOne_of_usedFields fun _ => ⟨rfl, rfl, rfl, rfl⟩⟩
  obtain ⟨hregs, hpc, hstatus, hstore, ⟨houtput, hinput⟩, hmodel⟩ :=
    onlyRegister_writeReg (s.setInput rest) c (answerWord x)
  have hread := (s.setInput rest).readReg_writeReg_same c (answerWord x)
  refine ⟨_, exec_inp_of_answer hin, fun b hx => ?byte, fun hx => ?eos, hregs, hinput, houtput, hpc,
    hstatus, hstore, hmodel⟩
  case byte => rw [hread, hx, answerWord_byte_toNat]
  case eos => rw [hread, hx, answerWord_eos]

end Sys2Proof.Machine
end

section
/-!
SUPPORT. Laws the statements about faults rest on (60_exceptions.md R120 to R125): when a step raises
a cause, by fetch or by the instruction, and what of it the host reads.
-/

namespace Sys2Proof.Machine

/-! ## What does not fault -/

section Complete
variable {s t : State} {i : Instr}

theorem Effect.status_ne_faulted (h : Effect s i t) (hs : s.status ≠ .faulted) :
    t.status ≠ .faulted := by
  rcases h.status_eq with e | ⟨_, e⟩
  · exact e ▸ hs
  · exact e ▸ nofun

theorem not_raises_of_neverFaults (h : neverFaults i = true) (d : Cause) : ¬ Raises s d i := by
  cases i with
  | cmov | add | mul | nand | halt | out | inp | loadv => exact id
  | sload | sstore | div | map | unmap | loadp => exact nomatch h

end Complete

/-! ## The cause a step raises -/

section StepRaises
variable {s t : State} {c : Cause}

/-- What fetch does before dispatch, the pc and the load interface, decides no fault. -/
theorem raises_closeLoad_advance (s : State) (c : Cause) (i : Instr) :
    Raises s.closeLoad.advance c i ↔ Raises s c i := by
  cases i with
  | _ => exact Iff.rfl

/-- A step raises a cause by fetch and decode, or by the instruction they give. -/
def StepRaises (s : State) (c : Cause) : Prop :=
  fetchInstr s = .error c ∨ ∃ i, fetchInstr s = .ok i ∧ Raises s c i

/-- A step enters the fault with a cause exactly if it raises that cause (R123, R124). -/
theorem stepRaises_iff (hs : s.status = .running) (h : step s = .next t) :
    StepRaises s c ↔ t.status = .faulted ∧ t.faultCause = some c := by
  constructor
  · rintro (hf | ⟨i, hf, hc⟩)
    · cases (step_of_fetchInstr_error hs hf).symm.trans h
      exact ⟨rfl, rfl⟩
    · have hexec : exec i s.closeLoad.advance = .next (raise c s.closeLoad.advance) :=
        exec_eq_next.2 (.inr ⟨c, (raises_closeLoad_advance s c i).2 hc, rfl⟩)
      cases ((step_of_fetchInstr hs hf).trans hexec).symm.trans h
      exact ⟨rfl, rfl⟩
  · rintro ⟨ht, hc⟩
    rcases step_eq_next h with ⟨hn, _⟩ | ⟨_, i, _, hi⟩ | ⟨_, i, d, hf, hd, rfl⟩ | ⟨_, d, hf, rfl⟩
    · exact absurd hs hn
    · exact absurd ht ((effect_of_completes hi).status_ne_faulted (by simp [hs]))
    · cases hc
      exact .inr ⟨i, hf, (raises_closeLoad_advance s c i).1 hd⟩
    · cases hc
      exact .inl hf

end StepRaises

/-! ## The table of faults -/

section Table
variable {s : State} {c : Cause}

/-- With segment 0 active, fetch raises only past its end, and decode only for an invalid opcode. -/
theorem faultCondition_of_fetchInstr_error {seg : Segment} (hseg : s.store.segment 0 = some seg)
    (h : fetchInstr s = .error c) : faultCondition s c := by
  rcases fetchInstr_eq_error.1 h with hw | ⟨w, v, hw, hd, rfl⟩
  · rcases locate_eq_error.1 (memRead_eq_error.1 hw) with ⟨hn, _⟩ | ⟨g, hg, hlen, rfl⟩
    · exact nomatch hseg.symm.trans hn
    · exact ⟨g, hg, hlen, .inl ⟨rfl, rfl⟩⟩
  · obtain ⟨hop, hv⟩ := decode_eq_error.1 hd
    cases hv
    exact ⟨hw, hop⟩

/-- What an instruction raises stands in the table. -/
theorem faultCondition_of_raises {i : Instr} (hf : fetchInstr s = .ok i) (h : Raises s c i) :
    faultCondition s c := by
  cases i with
  | cmov | add | mul | nand | halt | out | inp | loadv => exact h.elim
  | sload a b c =>
    rcases locate_eq_error.1 (memRead_eq_error.1 h) with ⟨hn, rfl⟩ | ⟨seg, hseg, hlen, rfl⟩
    · exact ⟨hn, .inl ⟨a, b, c, hf, rfl⟩⟩
    · exact ⟨seg, hseg, hlen, .inr (.inl ⟨a, b, c, hf, rfl, rfl⟩)⟩
  | sstore a b c =>
    rcases locate_eq_error.1 (memWrite_eq_error.1 h) with ⟨hn, rfl⟩ | ⟨seg, hseg, hlen, rfl⟩
    · exact ⟨hn, .inr (.inl ⟨a, b, c, hf, rfl⟩)⟩
    · exact ⟨seg, hseg, hlen, .inr (.inr ⟨a, b, c, hf, rfl, rfl⟩)⟩
  | div a b c =>
    obtain ⟨hzero, rfl⟩ := h
    exact ⟨a, b, c, hf, hzero⟩
  | map b c =>
    obtain ⟨rfl, hnone⟩ := segMap_eq_error.1 h
    exact .inl ⟨b, c, hf, hnone.imp_left newId_eq_none.1⟩
  | unmap c =>
    rcases segUnmap_eq_error.1 h with ⟨hzero, rfl⟩ | ⟨hne, hn, rfl⟩
    · exact ⟨c, hf, hzero⟩
    · exact ⟨hn, .inr (.inr (.inr ⟨c, hf, rfl, hne⟩))⟩
  | loadp b c =>
    rcases segReplaceZero_eq_error.1 h with ⟨hn, rfl⟩ | ⟨seg, hseg, hne, hfits, rfl⟩
    · exact ⟨hn, .inr (.inr (.inl ⟨b, c, hf, rfl⟩))⟩
    · exact .inr ⟨b, c, seg, hf, hne, hseg, hfits⟩

/-- Under the table's condition for a cause, the step raises it. -/
theorem stepRaises_of_faultCondition (h : faultCondition s c) : StepRaises s c := by
  cases c with
  | invalidOpcode w =>
    obtain ⟨hw, hop⟩ := h
    exact .inl (fetchInstr_eq_error.2 (.inr ⟨w, w, hw, decode_eq_error.2 ⟨hop, rfl⟩, rfl⟩))
  | divideByZero =>
    obtain ⟨a, b, c, hf, hzero⟩ := h
    exact .inr ⟨_, hf, hzero, rfl⟩
  | inactiveSegment id =>
    obtain ⟨hn, hcase⟩ := h
    have hlocate (off : Word) : s.store.locate id off = .error (.inactiveSegment id) :=
      locate_eq_error.2 (.inl ⟨hn, rfl⟩)
    rcases hcase with ⟨a, b, c, hf, rfl⟩ | ⟨a, b, c, hf, rfl⟩ | ⟨b, c, hf, rfl⟩ | ⟨c, hf, rfl, hne⟩
    · exact .inr ⟨_, hf, memRead_eq_error.2 (hlocate _)⟩
    · exact .inr ⟨_, hf, memWrite_eq_error.2 (hlocate _)⟩
    · exact .inr ⟨_, hf, segReplaceZero_eq_error.2 (.inl ⟨hn, rfl⟩)⟩
    · exact .inr ⟨_, hf, segUnmap_eq_error.2 (.inr ⟨hne, hn, rfl⟩)⟩
  | offsetOutOfRange id off =>
    obtain ⟨seg, hseg, hlen, hcase⟩ := h
    have hlocate : s.store.locate id off = .error (.offsetOutOfRange id off) :=
      locate_eq_error.2 (.inr ⟨seg, hseg, hlen, rfl⟩)
    rcases hcase with ⟨rfl, rfl⟩ | ⟨a, b, c, hf, rfl, rfl⟩ | ⟨a, b, c, hf, rfl, rfl⟩
    · exact .inl (fetchInstr_past_end hseg hlen)
    · exact .inr ⟨_, hf, memRead_eq_error.2 hlocate⟩
    · exact .inr ⟨_, hf, memWrite_eq_error.2 hlocate⟩
  | unmapSegmentZero =>
    obtain ⟨c, hf, hzero⟩ := h
    exact .inr ⟨_, hf, segUnmap_eq_error.2 (.inl ⟨hzero, rfl⟩)⟩
  | resourceExhausted =>
    rcases h with ⟨b, c, hf, hnone⟩ | ⟨b, c, seg, hf, hne, hseg, hfits⟩
    · exact .inr ⟨_, hf, segMap_eq_error.2 ⟨rfl, hnone.imp_left newId_eq_none.2⟩⟩
    · exact .inr ⟨_, hf, segReplaceZero_eq_error.2 (.inr ⟨seg, hseg, hne, hfits, rfl⟩)⟩

/-- With segment 0 active, the table is complete and exact (R120). -/
theorem stepRaises_iff_faultCondition {seg : Segment} (hseg : s.store.segment 0 = some seg) :
    StepRaises s c ↔ faultCondition s c := by
  refine ⟨?_, stepRaises_of_faultCondition⟩
  rintro (hf | ⟨i, hf, hi⟩)
  · exact faultCondition_of_fetchInstr_error hseg hf
  · exact faultCondition_of_raises hf hi

end Table

/-! ## What the host reads of a cause -/

/-- Code 0 is no fault (R120). -/
theorem causeCode_some_ne_zero (c : Cause) : causeCode (some c) ≠ 0 := by
  cases c with
  | _ => exact Nat.succ_ne_zero _

theorem hostView_faultCause_of_faulted {s : State} (h : s.status = .faulted) :
    s.hostView.faultCause = s.faultCause := if_pos h

theorem hostView_faultCause_of_not_faulted {s : State} (h : s.status ≠ .faulted) :
    s.hostView.faultCause = none := if_neg h

end Sys2Proof.Machine
end

section
/-!
PROOFS. The statements about faults (60_exceptions.md): what a faulting step shows, the table of
faults, the codes of fault_cause, and the instructions that never fault.
-/

namespace Sys2Proof.Machine

/-! ## Fault entry -/

/-- Settles O16: a step that ends faulted completed no instruction, so it ended in fault entry. -/
theorem faultEntryShowsCauseAndOutput : Obligations.FaultEntryShowsCauseAndOutput := by
  intro s t hs h ht
  rcases step_running hs h with ⟨i, _, he⟩ | ⟨d, p, rfl⟩
  · exact absurd ht (he.status_ne_faulted (s := s.closeLoad.advance) (by simp [hs]))
  · exact ⟨d, raised_raise d (s.closeLoad.setPc p)⟩

/-! ## The table of faults -/

/-- Settles O17: entering a fault is raising its cause, which the table decides. -/
theorem faultsAreExactlyTheTables : Obligations.FaultsAreExactlyTheTables := by
  intro s t c hs ⟨seg, hseg⟩ h
  exact (stepRaises_iff hs h).symm.trans (stepRaises_iff_faultCondition hseg)

/-- Settles O18: the codes are `causeCode`'s own cases; a faulted step has a cause by O16, and the host
reads none of a machine that is not faulted. -/
theorem faultCodesAreTheTables : Obligations.FaultCodesAreTheTables := by
  refine ⟨rfl, fun _ => rfl, rfl, fun _ => rfl, fun _ _ => rfl, rfl, rfl, fun s t hs h => ?_⟩
  constructor
  · intro ht
    obtain ⟨c, _, hc, _⟩ := faultEntryShowsCauseAndOutput s t hs h ht
    rw [hostView_faultCause_of_faulted ht, hc]
    exact causeCode_some_ne_zero c
  · intro hcode
    by_contra hn
    exact hcode (congrArg causeCode (hostView_faultCause_of_not_faulted hn))

/-! ## The instructions that never fault -/

/-- Settles O19: the instruction answers, raises nothing, and so completes, which neither enters a
fault nor writes the cause. -/
theorem eightInstructionsNeverFault : Obligations.EightInstructionsNeverFault := by
  intro i s hi hs
  obtain ⟨t, ht⟩ := exists_exec_eq_next i s
  rcases exec_eq_next.1 ht with hc | ⟨d, hd, _⟩
  · have he := effect_of_completes hc
    exact ⟨t, ht, he.status_ne_faulted hs, he.faultCause_eq⟩
  · exact absurd hd (not_raises_of_neverFaults hi d)

end Sys2Proof.Machine
end

section
/-!
SUPPORT. Laws the statements about boot rest on (70_reset_and_hazards.md R142): when an image fits,
the segment made of one, and what the program-load interface keeps (10_state.md R24).
-/

namespace Sys2Proof.Machine

/-! ## The image and its segment -/

theorem imageFits_iff {pool : Option Nat} {n : Nat} :
    imageFits pool n = true ↔ n ≤ Config.imageMaxWords ∧ fitsPool pool n = true := by
  rw [imageFits, Bool.and_eq_true, decide_eq_true_iff]

/-- An image that fits is shorter than 2^32 words, so its length is a word (10_state.md R24). -/
theorem Segment.ofWords_len_toNat {ws : List Word} (h : ws.length ≤ Config.imageMaxWords) :
    (Segment.ofWords ws).len.toNat = ws.length :=
  Nat.mod_eq_of_lt (Nat.lt_succ_of_le h)

/-! ## The store after a load into the reset store -/

/-- The store of reset with segment 0 an image. -/
def Store.ofImage (ws : List Word) : Store :=
  Store.initial.setSlot 0 (.active (Segment.ofWords ws))

section OfImage
variable {ws : List Word}

theorem Store.ofImage_segment_zero (ws : List Word) :
    (Store.ofImage ws).segment 0 = some (Segment.ofWords ws) :=
  Store.initial.segment_setSlot_active 0 _

theorem Store.ofImage_slot_other (ws : List Word) {id : Word} (h0 : id ≠ 0) :
    (Store.ofImage ws).slot id = none := by
  rw [Store.ofImage, Store.slot_setSlot_other _ h0, Store.initial_slot, if_neg h0]

theorem Store.memRead_ofImage (h : ws.length ≤ Config.imageMaxWords) {off : Word}
    (hoff : off.toNat < ws.length) :
    memRead (Store.ofImage ws) 0 off = .ok (ws.getD off.toNat 0) :=
  memRead_eq_ok.2 ⟨_, Store.ofImage_segment_zero ws, (Segment.ofWords_len_toNat h).symm ▸ hoff,
    (Segment.read_ofWords ws off).symm⟩

theorem Store.ofImage_wf (h : ws.length ≤ Config.imageMaxWords) : (Store.ofImage ws).wf = true :=
  Store.setSlot_wf Store.initial_wf 0 (Segment.ofWords_wf h)

theorem Store.ofImage_sound (ws : List Word) : (Store.ofImage ws).Sound := by
  obtain ⟨_, h0⟩ := Store.initial_sound.zero_active
  exact Store.initial_sound.setSlot_active (Store.segment_eq_some.2 h0) _

/-- The reset store uses no word, so the image's words are all there are (20_memory.md R53). -/
theorem Store.ofImage_wordsInUse_le (h : ws.length ≤ Config.imageMaxWords) :
    (Store.ofImage ws).wordsInUse ≤ ws.length := by
  have hle := Store.wordsInUse_setSlot_le Store.initial_wf 0 (.active (Segment.ofWords ws))
  have hinitial : Store.initial.wordsInUse = 0 := rfl
  have hwords : (Slot.active (Segment.ofWords ws)).words = ws.length := Segment.ofWords_len_toNat h
  rwa [hinitial, hwords, Nat.zero_add] at hle

end OfImage

/-! ## Load and boot -/

section Load
variable {s t : State} {image : List Word}

/-- The load interface of a sound machine is open only on the reset store, so what a load makes of it
is `Store.ofImage`. -/
theorem State.Sound.eq_of_loadImage (h : s.Sound) (hl : s.loadImage image = some t) :
    imageFits s.poolWords image.length = true ∧
      t = (s.setStore (Store.ofImage image)).closeLoad := by
  obtain ⟨hopen, hfits, rfl⟩ := loadImage_eq_some.1 hl
  obtain ⟨_, _, hstore, _⟩ := h.load_window hopen
  exact ⟨hfits, by rw [hstore, Store.ofImage]⟩

/-- A load keeps the invariant of the machine (10_state.md R18, R24). -/
theorem State.Sound.loadImage (h : s.Sound) (hl : s.loadImage image = some t) : t.Sound := by
  obtain ⟨hfits, rfl⟩ := h.eq_of_loadImage hl
  exact {
    canonical := Store.ofImage_wf (imageFits_iff.1 hfits).1
    cause_iff := h.cause_iff
    store_sound := fun _ => Store.ofImage_sound image
    load_window := fun ho => absurd ho Bool.false_ne_true }

/-- A load leaves the words in use within the pool, which the interface has tested (20_memory.md
R53). -/
theorem State.Sound.withinPool_of_loadImage (h : s.Sound) (hl : s.loadImage image = some t) :
    t.WithinPool := by
  obtain ⟨hfits, rfl⟩ := h.eq_of_loadImage hl
  obtain ⟨hmax, hpool⟩ := imageFits_iff.1 hfits
  exact fun _ => fitsPool_mono (Store.ofImage_wordsInUse_le hmax) hpool

/-- The coming answers are no part of the invariant (log entry 5). -/
theorem State.Sound.setInput (h : s.Sound) (as : List Answer) : (s.setInput as).Sound where
  canonical := h.canonical
  cause_iff := h.cause_iff
  store_sound := h.store_sound
  load_window := h.load_window

end Load

section Boot
variable {pool : Option Nat} {bytes : List Byte} (regs : Vector Word 8) (answers : List Answer)

/-- Boot takes no image that does not fit: the host's load fault (10_state.md R24). -/
theorem boot_of_not_imageFits (h : imageFits pool (bytes.length / 4) = false) :
    State.boot regs pool bytes answers = none :=
  loadImage_eq_none.2 (.inr ((wordsOfBytes_length bytes).symm ▸ h))

/-- Boot with an image that fits: the whole state of the engine's first step. -/
theorem boot_eq_ofImage (h : imageFits pool (bytes.length / 4) = true) :
    State.boot regs pool bytes answers =
      some ((((State.resetWith regs pool).setInput answers).setStore
        (Store.ofImage (wordsOfBytes bytes))).closeLoad) :=
  loadImage_eq_some.2 ⟨rfl, (wordsOfBytes_length bytes).symm ▸ h, rfl⟩

end Boot

end Sys2Proof.Machine
end

section
/-!
PROOFS. The statements about boot (70_reset_and_hazards.md).
-/

namespace Sys2Proof.Machine

/-- Settles O31: boot is a load into a reset machine, which is sound. -/
theorem bootIsSoundAndWithinThePool : Obligations.BootIsSoundAndWithinThePool := by
  intro regs pool bytes answers s h
  have hreset := (State.resetWith_sound regs pool).setInput answers
  exact ⟨hreset.loadImage h, hreset.withinPool_of_loadImage h⟩

/-- Settles O10: `boot_eq_ofImage` gives the state; its store is `Store.ofImage` and every other
field is that of reset or an argument. -/
theorem bootLoadsTheImageIntoSegmentZero : Obligations.BootLoadsTheImageIntoSegmentZero := by
  intro regs pool bytes answers
  refine ⟨boot_of_not_imageFits regs answers, fun hfits => ?_⟩
  have hlen := wordsOfBytes_length bytes
  have hmax : (wordsOfBytes bytes).length ≤ Config.imageMaxWords :=
    hlen ▸ (imageFits_iff.1 hfits).1
  refine ⟨_, boot_eq_ofImage regs answers hfits, fun _ => rfl, rfl, rfl, rfl, ?segment, ?words,
    ?others, rfl, rfl, rfl, rfl, rfl, rfl⟩
  case segment =>
    exact ⟨_, Store.ofImage_segment_zero _, (Segment.ofWords_len_toNat hmax).trans hlen⟩
  case words => exact fun off hoff => Store.memRead_ofImage hmax (hlen.symm ▸ hoff)
  case others => exact fun id h0 => Store.ofImage_slot_other _ h0

end Sys2Proof.Machine
end

section
/-!
PROOFS. The statement about the words the spec writes out (95_test_vectors.md 2.2).
-/

namespace Sys2Proof.Machine

/-- Settles O4: each of the first nine words holds what `decode_eq_ok` asks for, the opcode and the
used fields of its instruction; five of them also have ignored bits set (R68, R69). The tenth has
opcode 14, which `decode_eq_error` refuses. -/
theorem specWordsDecodeAsWritten : Obligations.SpecWordsDecodeAsWritten := by
  refine ⟨?cmov, ?addSevens, ?addIgnoredBits, ?halt, ?map, ?unmap, ?out, ?loadp, ?loadv,
    ?invalid⟩
  case invalid => exact decode_eq_error.2 ⟨by decide, rfl⟩
  all_goals exact decode_eq_ok.2 ⟨rfl, rfl, rfl⟩

end Sys2Proof.Machine
end
